-- ==== Sys2Proof/Word.lean ====
section
/-! DEFINITION. The word type of the block: every value, argument and mask is 8 bits wide and unsigned
(00_scope.md R10, R11). -/

namespace Sys2Proof

/-- An 8-bit value, `u8` (R10). Bit 0 is the least significant bit (R11). -/
abbrev Byte := BitVec 8

end Sys2Proof
end

