-- ==== Sys2Proof/Config.lean ====
section
/-! DEFINITION. What one block instance is built from, fixed for its life (00_scope.md R8, R9; 10_state.md R23 to
R27), and the free values: what the spec leaves open and nothing in Lean can evaluate. -/

namespace Sys2Proof

/-- A GPIO line identifier (R8, D32). The spec leaves the type a parameter with decidable equality; the wrapped
number is never computed with, only compared. DESIGN CHOICE, safe (log entry 6). -/
structure LineId where
  number : Nat
  deriving DecidableEq, Repr

/-- The PinAssignment (R23): register-select line, enable line, data lines in order. The list is as supplied; its
length is checked by `init` only (R202). -/
structure Pins where
  rs : LineId
  en : LineId
  data : List LineId
  deriving DecidableEq, Repr

/-- The bus width (R24). -/
inductive BusWidth where
  | fourBit
  | eightBit
  deriving DecidableEq, Repr

/-- The character-cell font requested (R26). -/
inductive Font where
  | font5x8
  | font5x10
  deriving DecidableEq, Repr

/-- The timing parameters of R9, each held as the milliseconds it lies ABOVE its lower bound: "a larger value as an
argument, never a smaller one" then holds of every value of this type. DESIGN CHOICE, safe (log entry 5). -/
structure Timing where
  /-- above `T_PULSE`'s bound -/
  pulse : Nat
  /-- above `T_POWER`'s bound -/
  power : Nat
  /-- above `T_HS4_1`'s bound -/
  hs41 : Nat
  /-- above `T_HS4_2`'s bound -/
  hs42 : Nat
  /-- above `T_HS4_3`'s bound -/
  hs43 : Nat
  /-- above `T_HS8_1`'s bound -/
  hs81 : Nat
  /-- above `T_HS8_2`'s bound -/
  hs82 : Nat
  /-- above `T_CLEAR`'s bound -/
  clear : Nat
  deriving DecidableEq, Repr

/-- Every timing parameter at its default (R9). -/
def Timing.default : Timing :=
  { pulse := 0, power := 0, hs41 := 0, hs42 := 0, hs43 := 0, hs81 := 0, hs82 := 0, clear := 0 }

/-- The configuration of one instance (R8, R9): written at construction, by no operation (R27). -/
structure Configuration where
  /-- whether a configuration handle was supplied to `init` at all (R8) -/
  cfgPresent : Bool
  pins : Pins
  busWidth : BusWidth
  cols : Nat
  rows : Nat
  font : Font
  timing : Timing
  deriving DecidableEq, Repr

/-- The row-offset table (R32): four DDRAM base addresses. -/
structure RowOffsets where
  r0 : Byte
  r1 : Byte
  r2 : Byte
  r3 : Byte
  deriving DecidableEq, Repr, Inhabited

/-- FREE VALUE: the level of a line that no `Set` has driven yet (R41, D17: "a draw, under no law"). Log entry 10. -/
opaque Config.freeLevel : LineId → Bool

/-- FREE VALUE: bit i of what a latch samples where `pins.data` has no line i (D28: `data[i]` is then undefined; the spec
gives the reader of R93 no value for it). Log entry 35. -/
opaque Config.freeMissing : Nat → Bool

/-- FREE VALUE: what `displayControl` gives when read while it holds `none` (D16: no rule reads it then). Log entry 11. -/
opaque Config.unwrittenControl : Byte

/-- FREE VALUE: what `displayMode` gives when read while it holds `none` (D16). Log entry 11. -/
opaque Config.unwrittenMode : Byte

/-- FREE VALUE: what `rowOffset` gives when read while it holds `none` (D16). Log entry 11. -/
opaque Config.unwrittenRowOffset : RowOffsets

end Sys2Proof
end

