-- ==== Sys2Proof/Syntax.lean ====
section
/-! DEFINITION. What the block executes: one constructor of `Instr` per row of spec/opcode_table.json, in its order,
and the forms in which a request reaches the block (30_encoding.md R80, R91, R97). -/

namespace Sys2Proof

/-- The operations the host may request, exactly these (R45). The names a fault or a refusal records (R201). -/
inductive HostOp where
  | command | writeChar | init | clear | home | setCursor
  | display | noDisplay | cursor | noCursor | blink | noBlink
  | scrollDisplayLeft | scrollDisplayRight
  | leftToRight | rightToLeft | autoscroll | noAutoscroll
  | createChar | print
  deriving DecidableEq, Repr

/-- The eight glyph rows of `createChar`: "exactly 8 `u8` glyph rows" (R10, R180), fixed by the type. -/
structure Glyph where
  g0 : Byte
  g1 : Byte
  g2 : Byte
  g3 : Byte
  g4 : Byte
  g5 : Byte
  g6 : Byte
  g7 : Byte
  deriving DecidableEq, Repr

/-- The glyph rows in index order (R66, R180). -/
def Glyph.rows (g : Glyph) : List Byte := [g.g0, g.g1, g.g2, g.g3, g.g4, g.g5, g.g6, g.g7]

/-- One constructor per row of the opcode table. The first ten are the bus words of format `bus9` (R81 to R90, R95;
`x` holds the bits a class does not use, kept because `command` passes any byte verbatim), the next two the
handshake nibbles of format `nib4` (R91), then the internal procedures (R110 to R120), then the host requests. -/
inductive Instr where
  /-- R82 -/
  | clearDisplay
  /-- R83 -/
  | returnHome (x : BitVec 1)
  /-- R84: I = `ENTRYLEFT`, S = `ENTRYSHIFTINCREMENT` -/
  | entryModeSet (left increment : Bool)
  /-- R85: D, C, B -/
  | displayControl (displayOn cursorOn blinkOn : Bool)
  /-- R86: M = `DISPLAYMOVE`, R = `MOVERIGHT` -/
  | cursorShift (displayMove moveRight : Bool) (x : BitVec 2)
  /-- R87: L = `8BITMODE`, N = `2LINE`, F = `5x10DOTS` -/
  | functionSet (eightBit twoLine dots5x10 : Bool) (x : BitVec 2)
  /-- R89 -/
  | setCgramAddr (a : BitVec 6)
  /-- R88 -/
  | setDdramAddr (a : BitVec 7)
  /-- R90 -/
  | data (d : Byte)
  /-- R95 (b): `0x00` with rs = 0 -/
  | nonInstr00
  /-- R91: nibble `0x3` -/
  | hsNib3
  /-- R91: nibble `0x2` -/
  | hsNib2
  /-- R110 -/
  | pulseEnable
  /-- R111 -/
  | writeNibble (v : Byte)
  /-- R112 -/
  | writeByte (v : Byte)
  /-- R120 -/
  | send (v : Byte) (isData : Bool)
  /-- R121 -/
  | command (v : Byte)
  /-- R122 -/
  | writeChar (v : Byte)
  /-- R130 -/
  | init
  /-- R160 -/
  | clear
  /-- R161 -/
  | home
  /-- R162 -/
  | setCursor (col row : Byte)
  /-- R163 -/
  | display
  /-- R164 -/
  | noDisplay
  /-- R165 -/
  | cursor
  /-- R166 -/
  | noCursor
  /-- R167 -/
  | blink
  /-- R168 -/
  | noBlink
  /-- R169 -/
  | scrollDisplayLeft
  /-- R170 -/
  | scrollDisplayRight
  /-- R171 -/
  | leftToRight
  /-- R172 -/
  | rightToLeft
  /-- R173 -/
  | autoscroll
  /-- R174 -/
  | noAutoscroll
  /-- R180 -/
  | createChar (location : Byte) (glyph : Glyph)
  /-- R181 -/
  | print (text : List Byte)
  deriving DecidableEq, Repr

/-- Who asks (R121's `caller`): the host, or the block itself for one of its own transfers. -/
inductive Caller where
  | host
  | block
  deriving DecidableEq, Repr

/-- The written form of one instruction: a bus word rs d7..d0 (R80), a handshake nibble rs d3..d0 (R91), or one line
of the program syntax of R97, in ASCII. -/
inductive Code where
  | bus9 (w : BitVec 9)
  | nib4 (w : BitVec 5)
  | call (line : List Byte)
  deriving DecidableEq, Repr

/-- One entry of the queue of requests (log entries 2 and 3). -/
structure Request where
  caller : Caller
  code : Code
  deriving DecidableEq, Repr

/-- Why a written form is no instruction. Each is named; nothing falls through to a neighbour. -/
inductive DecodeError where
  /-- a 5-bit word other than the two handshake nibbles of R91 -/
  | notHandshakeNibble (w : BitVec 5)
  /-- a byte that can stand at no place of a line of R97 -/
  | badCharacter (c : Byte)
  /-- a quoted string that the line does not end -/
  | openString
  /-- the line is not of the form `name(arg, ...)` -/
  | notACall
  /-- the name is no operation of R45 and no procedure of R16 -/
  | unknownName (name : List Byte)
  /-- an argument is no decimal or `0x` number -/
  | badNumber (word : List Byte)
  /-- a number above 255: an argument wider than 8 bits cannot be written (D2) -/
  | tooWide (n : Nat)
  /-- the number or the kind of the arguments is not the operation's -/
  | badArguments
  /-- a glyph that does not have exactly 8 rows (R180) -/
  | notEightRows (n : Nat)
  deriving DecidableEq, Repr

end Sys2Proof
end

