-- ==== Sys2Proof/Machine/State.lean ====
section
/-! DEFINITION. The complete state of one block instance (10_state.md R21), plain data, with the two fields of the
model's own that the interface needs (log entry 2); the reasons a step can stop; construction (70_reset_and_hazards.md
R230) and the state after reset. The block has no memory (20_memory.md R60), so none stands here. -/

namespace Sys2Proof.Machine

/-- The lifecycle (R28). -/
inductive Life where
  | uninitialized
  | initializing
  | ready
  deriving DecidableEq, Repr

/-- The one reported error kind (R200 (a)). -/
inductive ErrorKind where
  | invalidConfiguration
  deriving DecidableEq, Repr

/-- The output events (R40). -/
inductive Event where
  /-- `configureOutput(l)` -/
  | cfg (l : LineId)
  /-- `setLevel(l, b)` -/
  | set (l : LineId) (b : Bool)
  /-- `delay(t)`: at least t ms pass before the next event (R43) -/
  | dly (t : Nat)
  /-- the fatal-argument report -/
  | fatal (k : ErrorKind)
  deriving DecidableEq, Repr

/-- The spec's own sticky faults with the information they record (R201). They are STATE, not stops of the model:
raising one is a next state (R33, R204, R205, R207). -/
inductive FaultKind where
  | notReady (op : HostOp)
  | alreadyInitialized
  | busWidthMisuse (v : Byte)
  deriving DecidableEq, Repr

/-- What a request is answered with (R46, R200, R201, R209). -/
inductive Result where
  | ok
  /-- `Ok(n)` of `print` (R181, D13) -/
  | okCount (n : Nat)
  /-- `Err(InvalidConfiguration)` (R202) -/
  | errInvalidConfiguration
  /-- the request ended in a fault -/
  | faulted (k : FaultKind)
  /-- the request was refused because a fault stands (R206) -/
  | refused (op : HostOp)
  deriving DecidableEq, Repr

/-- One block instance. -/
structure State where
  /-- R23 to R27, R8, R9: fixed at construction -/
  config : Configuration
  /-- R28 -/
  life : Life
  /-- R29; `none` holds no value, the spec's own reset value -/
  displayFunction : Option Byte
  /-- R30; `none` likewise -/
  displayControl : Option Byte
  /-- R31; `none` likewise -/
  displayMode : Option Byte
  /-- R32; `none` likewise -/
  rowOffset : Option RowOffsets
  /-- R33 -/
  fault : Option FaultKind
  /-- R40: the output, append-only, oldest event first -/
  trace : List Event
  /-- the model's own: requests waiting for the block, first one first (log entries 2, 3) -/
  pending : List Request
  /-- the model's own: what the last request was answered with (log entry 2) -/
  result : Option Result
  deriving DecidableEq, Repr

/-- Why the MODEL stops on an access the spec leaves undefined. Neither can be reached by a host request from a state
that meets the invariant of Sys2Proof/Safety.lean. -/
inductive Fault where
  /-- Raised by `writeNibble` and `writeByte` (and so by `send` and every bus word) when `pins.data` has fewer lines
  than the latch drives: `data[i]` is then undefined (D28, I13 "reject ... out-of-range indices explicitly"). Safe: the
  model stops. Log entry 12. -/
  | missingDataLine (wanted given : Nat)
  /-- Raised by `setCursor` when the clamped row is no index of the row-offset table, which needs a configuration that
  `init` rejects (R202; I13). Safe: the model stops. Log entry 13. -/
  | rowOutsideTable (rows row : Nat)
  deriving DecidableEq, Repr

/-- Why the model gives what stands first in `pending` no meaning. -/
inductive Refusal where
  /-- Raised by an arm of `exec` that has no meaning yet; no arm does. Safe: nothing is claimed of it. -/
  | notModelled (mnemonic : String)
  /-- Raised by `step` when the written form is no instruction (R97, R91). Safe: nothing is claimed of it. Log entry 24. -/
  | undecodable (e : DecodeError)
  /-- Raised by `step` when the caller may not ask for the instruction: "internal procedures that the host cannot
  request" (R45, D4). Safe: such a host is outside the model. Log entry 21. -/
  | notRequestable (caller : Caller) (i : Instr)
  deriving DecidableEq, Repr

/-- Construction, the block's only reset (R230): every field as its table gives it, for the configuration supplied. -/
def State.construct (c : Configuration) : State :=
  { config := c
    life := .uninitialized
    displayFunction := none
    displayControl := none
    displayMode := none
    rowOffset := none
    fault := none
    trace := []
    pending := []
    result := none }

/-- The configuration the reset state is constructed from: the spec leaves it to the host ("as supplied", R230).
DESIGN CHOICE (log entry 4): the spec's own test configuration K4 of 95_test_vectors.md (16x2, FourBit, 5x8, four data
lines, distinct lines, a handle supplied, default timing). No statement rests on it. -/
def resetConfiguration : Configuration :=
  { cfgPresent := true
    pins := { rs := ⟨0⟩, en := ⟨1⟩, data := [⟨2⟩, ⟨3⟩, ⟨4⟩, ⟨5⟩] }
    busWidth := .fourBit
    cols := 16
    rows := 2
    font := .font5x8
    timing := .default }

/-- The machine right after reset. -/
def State.reset : State := State.construct resetConfiguration

end Sys2Proof.Machine
end

