-- ==== Sys2Proof/Machine/Ops.lean ====
section
/-! DEFINITION. The named operations every meaning is built from: emitting events (00_scope.md R13), timing values
(R9), sequencing, results (R14), raising a fault, the refusal of a request, the guard (60_exceptions.md R204 to R208),
and the reads of the masks and the row table. -/

namespace Sys2Proof.Machine

/-! ## Sequencing -/

/-- Do `k` from where `o` ended; a stop ends both. -/
def andThen (o : Host.Outcome State Fault Refusal) (k : State → Host.Outcome State Fault Refusal) :
    Host.Outcome State Fault Refusal :=
  match o with
  | .next s => k s
  | .fault f => .fault f
  | .refused r => .refused r

/-! ## Output (R13, R40) -/

/-- `Emit` of events in order: they go to the end of the trace. -/
def emit (es : List Event) (s : State) : State := { s with trace := s.trace ++ es }

/-! ## Timing parameters (R9): the lower bound and what the instance waits above it -/

/-- `T_PULSE`, at least 1 ms. -/
def tPulse (c : Configuration) : Nat := 1 + c.timing.pulse
/-- `T_POWER`, at least 40 ms. -/
def tPower (c : Configuration) : Nat := 40 + c.timing.power
/-- `T_HS4_1`, at least 5 ms. -/
def tHs41 (c : Configuration) : Nat := 5 + c.timing.hs41
/-- `T_HS4_2`, at least 5 ms. -/
def tHs42 (c : Configuration) : Nat := 5 + c.timing.hs42
/-- `T_HS4_3`, at least 2 ms. -/
def tHs43 (c : Configuration) : Nat := 2 + c.timing.hs43
/-- `T_HS8_1`, at least 5 ms. -/
def tHs81 (c : Configuration) : Nat := 5 + c.timing.hs81
/-- `T_HS8_2`, at least 2 ms. -/
def tHs82 (c : Configuration) : Nat := 2 + c.timing.hs82
/-- `T_CLEAR`, at least 2 ms (90_conflicts.md C1, D25: the intended bound; a longer wait conforms). -/
def tClear (c : Configuration) : Nat := 2 + c.timing.clear

/-! ## Results, faults and refusals -/

/-- `return` (R14, R46): the answer to the request. -/
def answer (r : Result) (s : State) : State := { s with result := some r }

/-- `raise F` (R14, R33, R209): the fault is recorded and stays, no event is emitted, everything else is kept. -/
def raise (k : FaultKind) (s : State) : State := { s with fault := some k, result := some (.faulted k) }

/-- A request while a fault stands (R206): no event, no change; only the answer says it was refused (log entry 14). -/
def refuse (op : HostOp) (s : State) : State := answer (.refused op) s

/-- `Guard(op)` (R204) before the body of every request but `init`, in the order of R208. -/
def guarded (op : HostOp) (body : State → Host.Outcome State Fault Refusal) (s : State) :
    Host.Outcome State Fault Refusal :=
  if s.fault ≠ none then .next (refuse op s)
  else if s.life ≠ .ready then .next (raise (.notReady op) s)
  else body s

/-! ## Reads of the masks and the row table

Each holds a value whenever a rule reads it (D16); in a state no run reaches, where it holds none, the value is free
(log entry 11). -/

/-- `displayControl` as an operation reads it (R30). -/
def controlMask (s : State) : Byte := s.displayControl.getD Config.unwrittenControl

/-- `displayMode` as an operation reads it (R31). -/
def modeMask (s : State) : Byte := s.displayMode.getD Config.unwrittenMode

/-- `rowOffset` as `setCursor` reads it (R32). -/
def rowTableOf (s : State) : RowOffsets := s.rowOffset.getD Config.unwrittenRowOffset

end Sys2Proof.Machine
end

