-- ==== Sys2Proof/Machine/Flags.lean ====
section
/-! DEFINITION. The bits of the three shadow masks (10_state.md R29 to R31; numeric values UNVERIFIED by the spec's own
account, G1, log entry 7), the value `init` computes for `displayFunction` (42_init.md R132), and setting and clearing one bit. -/

namespace Sys2Proof.Machine

/-- `8BITMODE` (R87); `4BITMODE` is 0. -/
def EIGHTBITMODE : Byte := 0x10
/-- `2LINE` (R87); `1LINE` is 0. -/
def TWOLINE : Byte := 0x08
/-- `5x10DOTS` (R87); `5x8DOTS` is 0. -/
def DOTS5X10 : Byte := 0x04

/-- `DISPLAYON` (R85); `DISPLAYOFF` is 0. -/
def DISPLAYON : Byte := 0x04
/-- `CURSORON` (R85); `CURSOROFF` is 0. -/
def CURSORON : Byte := 0x02
/-- `BLINKON` (R85); `BLINKOFF` is 0. -/
def BLINKON : Byte := 0x01

/-- `ENTRYLEFT` (R84); `ENTRYRIGHT` is 0. -/
def ENTRYLEFT : Byte := 0x02
/-- `ENTRYSHIFTINCREMENT` (R84); `ENTRYSHIFTDECREMENT` is 0. -/
def ENTRYSHIFTINCREMENT : Byte := 0x01

/-- `DISPLAYMOVE` (R86); `CURSORMOVE` is 0. -/
def DISPLAYMOVE : Byte := 0x08
/-- `MOVERIGHT` (R86); `MOVELEFT` is 0. -/
def MOVERIGHT : Byte := 0x04

/-- A flag when its condition holds, else 0. -/
def flagIf (b : Bool) (flag : Byte) : Byte := if b then flag else 0

/-- Set the bits of `flag` (R163 and others: `mask | flag`). -/
def setFlag (mask flag : Byte) : Byte := mask ||| flag

/-- Clear the bits of `flag` (R164 and others: `mask & ~flag`). -/
def clearFlag (mask flag : Byte) : Byte := mask &&& ~~~flag

/-- `displayFunction` as `init` step 1 computes it (R29, R132): 5x10 only with one row (C2: else silently downgraded). -/
def functionMask (c : Configuration) : Byte :=
  flagIf (c.busWidth = .eightBit) EIGHTBITMODE
    ||| flagIf (c.rows > 1) TWOLINE
    ||| flagIf (c.font = .font5x10 ∧ c.rows = 1) DOTS5X10

/-- `displayControl` after `init` (R30, R140): `DISPLAYON | CURSOROFF | BLINKOFF`. -/
def initialControl : Byte := DISPLAYON

/-- `displayMode` after `init` (R31, R140): `ENTRYLEFT | ENTRYSHIFTDECREMENT`. -/
def initialMode : Byte := ENTRYLEFT

end Sys2Proof.Machine
end

