-- ==== Sys2Proof/Machine/Operands.lean ====
section
/-! DEFINITION. How operands become instruction bytes (30_encoding.md R82 to R89, R94), the row-offset table
(42_init.md R133), the address translations (20_memory.md R62, R63), and which configurations are valid (60_exceptions.md
R202). Numeric instruction values: UNVERIFIED by the spec's own account (G1, log entry 7). -/

namespace Sys2Proof.Machine

/-! ## Instruction bytes (R82 to R89) -/

/-- R82 -/
def CLEARDISPLAY : Byte := 0x01
/-- R83 -/
def RETURNHOME : Byte := 0x02
/-- R84 -/
def ENTRYMODESET : Byte := 0x04
/-- R85 -/
def DISPLAYCONTROL : Byte := 0x08
/-- R86 -/
def CURSORSHIFT : Byte := 0x10
/-- R87 -/
def FUNCTIONSET : Byte := 0x20
/-- R89 -/
def SETCGRAMADDR : Byte := 0x40
/-- R88 -/
def SETDDRAMADDR : Byte := 0x80

/-! ## Validity of a configuration (R202, D3, D28) -/

/-- How many data lines the bus width uses (R24). -/
def busLines (b : BusWidth) : Nat :=
  match b with
  | .fourBit => 4
  | .eightBit => 8

/-- The data lines a transfer drives: `data[0..w-1]` (R24). -/
def usedData (c : Configuration) : List LineId := c.pins.data.take (busLines c.busWidth)

/-- `Valid(config)` (R202). The font is not checked (C2). -/
def valid (c : Configuration) : Bool :=
  c.cfgPresent
    && decide (1 ≤ c.rows ∧ c.rows ≤ 4)
    && decide (1 ≤ c.cols ∧ c.cols ≤ 40)
    && decide (c.pins.data.length ≤ 8)
    && decide (busLines c.busWidth ≤ c.pins.data.length)
    && decide (c.pins.rs :: c.pins.en :: usedData c).Nodup

/-! ## Row table and addresses -/

/-- The row-offset table `init` step 2 computes (R32, R133), all four entries whatever `rows` is (D26). -/
def rowTable (cols : Nat) : RowOffsets :=
  { r0 := 0x00, r1 := 0x40, r2 := BitVec.ofNat 8 cols, r3 := BitVec.ofNat 8 (0x40 + cols) }

/-- `rowOffset[r]`, bounds-checked (I13). -/
def rowEntry (t : RowOffsets) (r : Nat) : Option Byte :=
  match r with
  | 0 => some t.r0
  | 1 => some t.r1
  | 2 => some t.r2
  | 3 => some t.r3
  | _ => none

/-- The row `setCursor` uses (R63, R162): clamped to `rows - 1`. With no rows at all there is none. -/
def clampRow (rows row : Nat) : Option Nat :=
  if rows = 0 then none
  else some (if row ≥ rows then rows - 1 else row)

/-- The byte `setCursor` sends (R63, R88, R94): unbounded arithmetic, then mod 256 (D12). The column is not clamped. -/
def cursorByte (col offset : Byte) : Byte :=
  BitVec.ofNat 8 (SETDDRAMADDR.toNat ||| (col.toNat + offset.toNat))

/-- The byte `createChar` sends first (R62, R89, R180): location masked to 3 bits, eight addresses a slot. -/
def glyphAddressByte (location : Byte) : Byte :=
  SETCGRAMADDR ||| ((location &&& 0x07#8) <<< 3)

/-! ## The bytes of the bus words with fields (R83 to R89) -/

/-- R83, with the bit the class does not use. -/
def returnHomeByte (x : BitVec 1) : Byte := RETURNHOME ||| x.setWidth 8

/-- R84 -/
def entryModeByte (left increment : Bool) : Byte :=
  ENTRYMODESET ||| flagIf left ENTRYLEFT ||| flagIf increment ENTRYSHIFTINCREMENT

/-- R85 -/
def displayControlByte (displayOn cursorOn blinkOn : Bool) : Byte :=
  DISPLAYCONTROL ||| flagIf displayOn DISPLAYON ||| flagIf cursorOn CURSORON ||| flagIf blinkOn BLINKON

/-- R86, with the bits the class does not use. -/
def cursorShiftByte (displayMove moveRight : Bool) (x : BitVec 2) : Byte :=
  CURSORSHIFT ||| flagIf displayMove DISPLAYMOVE ||| flagIf moveRight MOVERIGHT ||| x.setWidth 8

/-- R87, with the bits the class does not use. -/
def functionSetByte (eightBit twoLine dots5x10 : Bool) (x : BitVec 2) : Byte :=
  FUNCTIONSET ||| flagIf eightBit EIGHTBITMODE ||| flagIf twoLine TWOLINE ||| flagIf dots5x10 DOTS5X10 ||| x.setWidth 8

/-- R89, any 6-bit CGRAM address. -/
def cgramByte (a : BitVec 6) : Byte := SETCGRAMADDR ||| a.setWidth 8

/-- R88, any 7-bit DDRAM address. -/
def ddramByte (a : BitVec 7) : Byte := SETDDRAMADDR ||| a.setWidth 8

end Sys2Proof.Machine
end

