-- ==== Sys2Proof/Machine/BitTransfer.lean ====
section
/-! DEFINITION. The bit transfer layer (40_bit_transfer.md R110 to R113): the enable pulse and the nibble and byte
latches. Internal procedures: no guard and no return value. -/

namespace Sys2Proof.Machine

/-- The six events of one enable pulse (R110): low, high, low, each held for `T_PULSE`. -/
def pulseEvents (c : Configuration) : List Event :=
  [.set c.pins.en false, .dly (tPulse c),
   .set c.pins.en true, .dly (tPulse c),
   .set c.pins.en false, .dly (tPulse c)]

/-- Bit i of a value on line i, from bit `i` up, ascending (R65, R111, R112; the order is D5, log entry 17). -/
def driveFrom (v : Byte) (i : Nat) : List LineId → List Event
  | [] => []
  | l :: ls => .set l (v.getLsbD i) :: driveFrom v (i + 1) ls

/-- `pulseEnable()` (R110). -/
def pulseEnable (s : State) : Host.Outcome State Fault Refusal :=
  .next (emit (pulseEvents s.config) s)

/-- Drive the first `w` data lines with the low bits of `v`, then pulse; `data[i]` must exist (log entry 12). -/
def latch (w : Nat) (v : Byte) (s : State) : Host.Outcome State Fault Refusal :=
  if s.config.pins.data.length < w then .fault (.missingDataLine w s.config.pins.data.length)
  else pulseEnable (emit (driveFrom v 0 (s.config.pins.data.take w)) s)

/-- `writeNibble(value)` (R111): bits 3:0 on `data[0..3]`, bits 7:4 ignored. -/
def writeNibble (v : Byte) (s : State) : Host.Outcome State Fault Refusal := latch 4 v s

/-- `writeByte(value)` (R112): `BusWidthMisuse` before any event under FourBit (R207), else all eight bits. -/
def writeByte (v : Byte) (s : State) : Host.Outcome State Fault Refusal :=
  if s.config.busWidth ≠ .eightBit then .next (raise (.busWidthMisuse v) s)
  else latch 8 v s

/-- pulseEnable as the table's row (R110). -/
def execPulseEnable (s : State) : Host.Outcome State Fault Refusal := pulseEnable s

/-- writeNibble as the table's row (R111). -/
def execWriteNibble (v : Byte) (s : State) : Host.Outcome State Fault Refusal := writeNibble v s

/-- writeByte as the table's row (R112). -/
def execWriteByte (v : Byte) (s : State) : Host.Outcome State Fault Refusal := writeByte v s

end Sys2Proof.Machine
end

