-- ==== Sys2Proof/Machine/CommandData.lean ====
section
/-! DEFINITION. The command/data layer (41_command_data.md R120 to R123): `send`, and the host requests `command` and
`writeChar`. No line is ever read back and no transfer can fail (R123). -/

namespace Sys2Proof.Machine

/-- `send(value, isData)` (R120): register-select first (data = 1, instruction = 0: D7, log entry 8), then one byte
latch under EightBit, or the high nibble and then the low nibble under FourBit (R64). -/
def send (v : Byte) (isData : Bool) (s : State) : Host.Outcome State Fault Refusal :=
  let s1 := emit [.set s.config.pins.rs isData] s
  match s.config.busWidth with
  | .eightBit => writeByte v s1
  | .fourBit => andThen (writeNibble (v >>> 4) s1) (writeNibble v)

/-- `send` of the values in order (R98: `print` and the glyph rows of `createChar`). -/
def sendAll (isData : Bool) : List Byte → State → Host.Outcome State Fault Refusal
  | [], s => .next s
  | v :: vs, s => andThen (send v isData s) (sendAll isData vs)

/-- Do `o` and answer `r`. -/
def answering (r : Result) (o : Host.Outcome State Fault Refusal) : Host.Outcome State Fault Refusal :=
  andThen o (fun s => .next (answer r s))

/-- send as the table's row (R120). -/
def execSend (v : Byte) (isData : Bool) (s : State) : Host.Outcome State Fault Refusal := send v isData s

/-- `command(value)` requested by the host (R121): any value, verbatim (R95 (b)). -/
def execCommand (v : Byte) (s : State) : Host.Outcome State Fault Refusal :=
  guarded .command (fun s => answering .ok (send v false s)) s

/-- `writeChar(value)` requested by the host (R122): "returns success unconditionally". -/
def execWriteChar (v : Byte) (s : State) : Host.Outcome State Fault Refusal :=
  guarded .writeChar (fun s => answering .ok (send v true s)) s

end Sys2Proof.Machine
end

