-- ==== Sys2Proof/Machine/BusWords.lean ====
section
/-! DEFINITION. The transfer of one bus word (30_encoding.md R80: "One `send` transfers one bus word `(rs, d)`") for
each class of R81, and of one bare handshake nibble (R91, 42_init.md R136). These are the block's own transfers, without
the guard of a host request (R204), as `init` makes them (log entry 20). -/

namespace Sys2Proof.Machine

/-- R82 -/
def execClearDisplay (s : State) : Host.Outcome State Fault Refusal := send CLEARDISPLAY false s

/-- R83 -/
def execReturnHome (x : BitVec 1) (s : State) : Host.Outcome State Fault Refusal := send (returnHomeByte x) false s

/-- R84 -/
def execEntryModeSet (left increment : Bool) (s : State) : Host.Outcome State Fault Refusal :=
  send (entryModeByte left increment) false s

/-- R85 -/
def execDisplayControl (displayOn cursorOn blinkOn : Bool) (s : State) : Host.Outcome State Fault Refusal :=
  send (displayControlByte displayOn cursorOn blinkOn) false s

/-- R86 -/
def execCursorShift (displayMove moveRight : Bool) (x : BitVec 2) (s : State) : Host.Outcome State Fault Refusal :=
  send (cursorShiftByte displayMove moveRight x) false s

/-- R87 -/
def execFunctionSet (eightBit twoLine dots5x10 : Bool) (x : BitVec 2) (s : State) : Host.Outcome State Fault Refusal :=
  send (functionSetByte eightBit twoLine dots5x10 x) false s

/-- R89 -/
def execSetCgramAddr (a : BitVec 6) (s : State) : Host.Outcome State Fault Refusal := send (cgramByte a) false s

/-- R88 -/
def execSetDdramAddr (a : BitVec 7) (s : State) : Host.Outcome State Fault Refusal := send (ddramByte a) false s

/-- R90 -/
def execData (d : Byte) (s : State) : Host.Outcome State Fault Refusal := send d true s

/-- R95 (b): sent verbatim although it is no instruction of the controller. -/
def execNonInstr00 (s : State) : Host.Outcome State Fault Refusal := send 0x00 false s

/-- R91, R136: nibble `0x3`; `writeNibble` does not touch register-select, which `init` step 5 has driven low (log entry 22). -/
def execHsNib3 (s : State) : Host.Outcome State Fault Refusal := writeNibble 0x3 s

/-- R91, R136: nibble `0x2`. -/
def execHsNib2 (s : State) : Host.Outcome State Fault Refusal := writeNibble 0x2 s

end Sys2Proof.Machine
end

