-- ==== Sys2Proof/Machine/Init.lean ====
section
/-! DEFINITION. `init` (42_init.md R130 to R141): validation, the ten steps, the mode-set handshake. -/

namespace Sys2Proof.Machine

/-- Wait: one `Dly` event. -/
def wait (t : Nat) (s : State) : Host.Outcome State Fault Refusal := .next (emit [.dly t] s)

/-- Steps 1 and 2 (R132, R133): the function mask and the row table, both from the configuration. -/
def initTables (s : State) : State :=
  { s with displayFunction := some (functionMask s.config), rowOffset := some (rowTable s.config.cols) }

/-- Step 3 (R134): register-select, enable, then the used data lines become outputs (order: D6, log entry 17). -/
def initConfigure (s : State) : State :=
  emit (.cfg s.config.pins.rs :: .cfg s.config.pins.en :: (usedData s.config).map .cfg) s

/-- Steps 4 and 5 (R135): the power-up settle, then register-select and enable low. -/
def initSettle (s : State) : State :=
  emit [.dly (tPower s.config), .set s.config.pins.rs false, .set s.config.pins.en false] s

/-- Step 6 under FourBit (R136): nibbles 3, 3, 3, 2, one delay after each 3 (C4, D27). -/
def handshakeFour (s : State) : Host.Outcome State Fault Refusal :=
  andThen (writeNibble 0x3 s) fun s =>
  andThen (wait (tHs41 s.config) s) fun s =>
  andThen (writeNibble 0x3 s) fun s =>
  andThen (wait (tHs42 s.config) s) fun s =>
  andThen (writeNibble 0x3 s) fun s =>
  andThen (wait (tHs43 s.config) s) fun s =>
  writeNibble 0x2 s

/-- The byte `FUNCTIONSET | displayFunction` (R87, R137, R139). -/
def functionByte (c : Configuration) : Byte := FUNCTIONSET ||| functionMask c

/-- Step 6 under EightBit (R137): the complete function set three times, delays after the first and the second. -/
def handshakeEight (s : State) : Host.Outcome State Fault Refusal :=
  andThen (send (functionByte s.config) false s) fun s =>
  andThen (wait (tHs81 s.config) s) fun s =>
  andThen (send (functionByte s.config) false s) fun s =>
  andThen (wait (tHs82 s.config) s) fun s =>
  send (functionByte s.config) false s

/-- Step 6 (R136, R137). -/
def handshake (s : State) : Host.Outcome State Fault Refusal :=
  match s.config.busWidth with
  | .fourBit => handshakeFour s
  | .eightBit => handshakeEight s

/-- Step 7 (R139). -/
def initFunctionSet (s : State) : Host.Outcome State Fault Refusal := send (functionByte s.config) false s

/-- Step 8 (R140). -/
def initControl (s : State) : Host.Outcome State Fault Refusal :=
  send (DISPLAYCONTROL ||| initialControl) false { s with displayControl := some initialControl }

/-- Step 9 (R140): the body of `clear` without its check. -/
def initClear (s : State) : Host.Outcome State Fault Refusal :=
  andThen (send CLEARDISPLAY false s) fun s => wait (tClear s.config) s

/-- Step 10 (R140). -/
def initMode (s : State) : Host.Outcome State Fault Refusal :=
  send (ENTRYMODESET ||| initialMode) false { s with displayMode := some initialMode }

/-- Completion (R141): Ready, and the answer `Ok`. -/
def initDone (s : State) : Host.Outcome State Fault Refusal := .next (answer .ok { s with life := .ready })

/-- The ten steps after validation has passed (R130). -/
def initSteps (s : State) : Host.Outcome State Fault Refusal :=
  andThen (handshake (initSettle (initConfigure (initTables { s with life := .initializing })))) fun s =>
  andThen (initFunctionSet s) fun s =>
  andThen (initControl s) fun s =>
  andThen (initClear s) fun s =>
  andThen (initMode s) initDone

/-- `init()` (R130), its checks in the order of R208: refused, AlreadyInitialized (R205), InvalidConfiguration (R131,
R202: one `Fatal` event and nothing else), then the steps. -/
def execInit (s : State) : Host.Outcome State Fault Refusal :=
  if s.fault ≠ none then .next (refuse .init s)
  else if s.life = .ready then .next (raise .alreadyInitialized s)
  else if valid s.config = false then
    .next (answer .errInvalidConfiguration (emit [.fatal .invalidConfiguration] s))
  else initSteps s

end Sys2Proof.Machine
end

