-- ==== Sys2Proof/Machine/ControllerOps.lean ====
section
/-! DEFINITION. The high-level controller operations (43_controller_ops.md R160 to R181), host requests each. -/

namespace Sys2Proof.Machine

/-- A request that sends one instruction byte and answers `Ok`. -/
def sendInstruction (op : HostOp) (v : Byte) (s : State) : Host.Outcome State Fault Refusal :=
  guarded op (fun s => answering .ok (send v false s)) s

/-- A request that sends one instruction byte and blocks `T_CLEAR` (R160, R161). -/
def sendAndBlock (op : HostOp) (v : Byte) (s : State) : Host.Outcome State Fault Refusal :=
  guarded op (fun s => answering .ok (andThen (send v false s) fun s => wait (tClear s.config) s)) s

/-- A display-control request (R163 to R168): the mask is updated, then `DISPLAYCONTROL | displayControl` is sent. -/
def updateControl (op : HostOp) (f : Byte → Byte) (s : State) : Host.Outcome State Fault Refusal :=
  guarded op (fun s =>
    answering .ok (send (DISPLAYCONTROL ||| f (controlMask s)) false
      { s with displayControl := some (f (controlMask s)) })) s

/-- An entry-mode request (R171 to R174): the mask is updated, then `ENTRYMODESET | displayMode` is sent. -/
def updateMode (op : HostOp) (f : Byte → Byte) (s : State) : Host.Outcome State Fault Refusal :=
  guarded op (fun s =>
    answering .ok (send (ENTRYMODESET ||| f (modeMask s)) false
      { s with displayMode := some (f (modeMask s)) })) s

/-- The table entry of the clamped row (R162), bounds-checked (I13). -/
def cursorOffset (row : Byte) (s : State) : Option Byte :=
  match clampRow s.config.rows row.toNat with
  | some r => rowEntry (rowTableOf s) r
  | none => none

/-- The body of `setCursor` (R162). -/
def placeCursor (col row : Byte) (s : State) : Host.Outcome State Fault Refusal :=
  match cursorOffset row s with
  | some offset => send (cursorByte col offset) false s
  | none => .fault (.rowOutsideTable s.config.rows row.toNat)

/-- R160 -/
def execClear (s : State) : Host.Outcome State Fault Refusal := sendAndBlock .clear CLEARDISPLAY s

/-- R161 -/
def execHome (s : State) : Host.Outcome State Fault Refusal := sendAndBlock .home RETURNHOME s

/-- R162 -/
def execSetCursor (col row : Byte) (s : State) : Host.Outcome State Fault Refusal :=
  guarded .setCursor (fun s => answering .ok (placeCursor col row s)) s

/-- R163 -/
def execDisplay (s : State) : Host.Outcome State Fault Refusal := updateControl .display (setFlag · DISPLAYON) s

/-- R164 -/
def execNoDisplay (s : State) : Host.Outcome State Fault Refusal := updateControl .noDisplay (clearFlag · DISPLAYON) s

/-- R165 -/
def execCursor (s : State) : Host.Outcome State Fault Refusal := updateControl .cursor (setFlag · CURSORON) s

/-- R166 -/
def execNoCursor (s : State) : Host.Outcome State Fault Refusal := updateControl .noCursor (clearFlag · CURSORON) s

/-- R167 -/
def execBlink (s : State) : Host.Outcome State Fault Refusal := updateControl .blink (setFlag · BLINKON) s

/-- R168 -/
def execNoBlink (s : State) : Host.Outcome State Fault Refusal := updateControl .noBlink (clearFlag · BLINKON) s

/-- R169: `CURSORSHIFT | DISPLAYMOVE | MOVELEFT` -/
def execScrollDisplayLeft (s : State) : Host.Outcome State Fault Refusal :=
  sendInstruction .scrollDisplayLeft (CURSORSHIFT ||| DISPLAYMOVE) s

/-- R170: `CURSORSHIFT | DISPLAYMOVE | MOVERIGHT` -/
def execScrollDisplayRight (s : State) : Host.Outcome State Fault Refusal :=
  sendInstruction .scrollDisplayRight (CURSORSHIFT ||| DISPLAYMOVE ||| MOVERIGHT) s

/-- R171 -/
def execLeftToRight (s : State) : Host.Outcome State Fault Refusal := updateMode .leftToRight (setFlag · ENTRYLEFT) s

/-- R172 -/
def execRightToLeft (s : State) : Host.Outcome State Fault Refusal := updateMode .rightToLeft (clearFlag · ENTRYLEFT) s

/-- R173 -/
def execAutoscroll (s : State) : Host.Outcome State Fault Refusal :=
  updateMode .autoscroll (setFlag · ENTRYSHIFTINCREMENT) s

/-- R174 -/
def execNoAutoscroll (s : State) : Host.Outcome State Fault Refusal :=
  updateMode .noAutoscroll (clearFlag · ENTRYSHIFTINCREMENT) s

/-- R180: the CGRAM address, then the eight rows verbatim (D30). -/
def execCreateChar (location : Byte) (g : Glyph) (s : State) : Host.Outcome State Fault Refusal :=
  guarded .createChar (fun s =>
    answering .ok (andThen (send (glyphAddressByte location) false s) (sendAll true g.rows))) s

/-- R181: every character in order; the answer counts them (D13). -/
def execPrint (text : List Byte) (s : State) : Host.Outcome State Fault Refusal :=
  guarded .print (fun s => answering (.okCount text.length) (sendAll true text s)) s

end Sys2Proof.Machine
end

