-- ==== Sys2Proof/Machine/Dispatch.lean ====
section
/-! DEFINITION. One arm per constructor of Instr, each one call of that instruction's meaning. -/

namespace Sys2Proof.Machine

def exec (i : Instr) (s : State) : Host.Outcome State Fault Refusal :=
  match i with
  | .clearDisplay => Sys2Proof.Machine.execClearDisplay s
  | .returnHome x => Sys2Proof.Machine.execReturnHome x s
  | .entryModeSet left increment => Sys2Proof.Machine.execEntryModeSet left increment s
  | .displayControl displayOn cursorOn blinkOn => Sys2Proof.Machine.execDisplayControl displayOn cursorOn blinkOn s
  | .cursorShift displayMove moveRight x => Sys2Proof.Machine.execCursorShift displayMove moveRight x s
  | .functionSet eightBit twoLine dots x => Sys2Proof.Machine.execFunctionSet eightBit twoLine dots x s
  | .setCgramAddr a => Sys2Proof.Machine.execSetCgramAddr a s
  | .setDdramAddr a => Sys2Proof.Machine.execSetDdramAddr a s
  | .data d => Sys2Proof.Machine.execData d s
  | .nonInstr00 => Sys2Proof.Machine.execNonInstr00 s
  | .hsNib3 => Sys2Proof.Machine.execHsNib3 s
  | .hsNib2 => Sys2Proof.Machine.execHsNib2 s
  | .pulseEnable => Sys2Proof.Machine.execPulseEnable s
  | .writeNibble v => Sys2Proof.Machine.execWriteNibble v s
  | .writeByte v => Sys2Proof.Machine.execWriteByte v s
  | .send v isData => Sys2Proof.Machine.execSend v isData s
  | .command v => Sys2Proof.Machine.execCommand v s
  | .writeChar v => Sys2Proof.Machine.execWriteChar v s
  | .init => Sys2Proof.Machine.execInit s
  | .clear => Sys2Proof.Machine.execClear s
  | .home => Sys2Proof.Machine.execHome s
  | .setCursor col row => Sys2Proof.Machine.execSetCursor col row s
  | .display => Sys2Proof.Machine.execDisplay s
  | .noDisplay => Sys2Proof.Machine.execNoDisplay s
  | .cursor => Sys2Proof.Machine.execCursor s
  | .noCursor => Sys2Proof.Machine.execNoCursor s
  | .blink => Sys2Proof.Machine.execBlink s
  | .noBlink => Sys2Proof.Machine.execNoBlink s
  | .scrollDisplayLeft => Sys2Proof.Machine.execScrollDisplayLeft s
  | .scrollDisplayRight => Sys2Proof.Machine.execScrollDisplayRight s
  | .leftToRight => Sys2Proof.Machine.execLeftToRight s
  | .rightToLeft => Sys2Proof.Machine.execRightToLeft s
  | .autoscroll => Sys2Proof.Machine.execAutoscroll s
  | .noAutoscroll => Sys2Proof.Machine.execNoAutoscroll s
  | .createChar location glyph => Sys2Proof.Machine.execCreateChar location glyph s
  | .print text => Sys2Proof.Machine.execPrint text s

end Sys2Proof.Machine
end

