-- ==== Sys2Proof/WellFormed.lean ====
section
/-! DEFINITION. Who may ask for what (10_state.md R45, D4): the host requests exactly the twenty operations of R45;
bus words, handshake nibbles and the procedures `pulseEnable`, `writeNibble`, `writeByte` and `send` are the block's
own. Operand widths need no check: they are in the types (R10, D2). -/

namespace Sys2Proof

/-- The host operation an instruction is, if the host may request it (R45). -/
def Instr.hostOp : Instr → Option HostOp
  | .clearDisplay => none
  | .returnHome _ => none
  | .entryModeSet _ _ => none
  | .displayControl _ _ _ => none
  | .cursorShift _ _ _ => none
  | .functionSet _ _ _ _ => none
  | .setCgramAddr _ => none
  | .setDdramAddr _ => none
  | .data _ => none
  | .nonInstr00 => none
  | .hsNib3 => none
  | .hsNib2 => none
  | .pulseEnable => none
  | .writeNibble _ => none
  | .writeByte _ => none
  | .send _ _ => none
  | .command _ => some .command
  | .writeChar _ => some .writeChar
  | .init => some .init
  | .clear => some .clear
  | .home => some .home
  | .setCursor _ _ => some .setCursor
  | .display => some .display
  | .noDisplay => some .noDisplay
  | .cursor => some .cursor
  | .noCursor => some .noCursor
  | .blink => some .blink
  | .noBlink => some .noBlink
  | .scrollDisplayLeft => some .scrollDisplayLeft
  | .scrollDisplayRight => some .scrollDisplayRight
  | .leftToRight => some .leftToRight
  | .rightToLeft => some .rightToLeft
  | .autoscroll => some .autoscroll
  | .noAutoscroll => some .noAutoscroll
  | .createChar _ _ => some .createChar
  | .print _ => some .print

/-- The host may request the operations of R45 only; the block's own transfers are the other rows of the table. -/
def WellFormed (caller : Caller) (i : Instr) : Bool :=
  match caller with
  | .host => i.hostOp.isSome
  | .block => i.hostOp.isNone

end Sys2Proof
end

