-- ==== Sys2Proof/Decode.lean ====
section
/-! DEFINITION. Decoding, total on every written form and rejecting by name, and after it the encoder.

Bus words: the class is given by the most significant 1 bit (30_encoding.md R81; numeric values UNVERIFIED, G1, log entry 7).
Handshake nibbles: R91. Host requests: the call form of R97 (its details are DESIGN CHOICE, log entry 23). -/

namespace Sys2Proof

/-! ## Bus words and handshake nibbles -/

/-- The row a 9-bit word rs d7..d0 belongs to (R81, R90, R95): every word has exactly one. -/
def decodeBus9 (w : BitVec 9) : Instr :=
  if w.getLsbD 8 then .data (w.extractLsb' 0 8)
  else if w.getLsbD 7 then .setDdramAddr (w.extractLsb' 0 7)
  else if w.getLsbD 6 then .setCgramAddr (w.extractLsb' 0 6)
  else if w.getLsbD 5 then .functionSet (w.getLsbD 4) (w.getLsbD 3) (w.getLsbD 2) (w.extractLsb' 0 2)
  else if w.getLsbD 4 then .cursorShift (w.getLsbD 3) (w.getLsbD 2) (w.extractLsb' 0 2)
  else if w.getLsbD 3 then .displayControl (w.getLsbD 2) (w.getLsbD 1) (w.getLsbD 0)
  else if w.getLsbD 2 then .entryModeSet (w.getLsbD 1) (w.getLsbD 0)
  else if w.getLsbD 1 then .returnHome (w.extractLsb' 0 1)
  else if w.getLsbD 0 then .clearDisplay
  else .nonInstr00

/-- The two handshake nibbles rs d3..d0 of R91; every other 5-bit word is no instruction of the table. -/
def decodeNib4 (w : BitVec 5) : Except DecodeError Instr :=
  if w = 0b00011#5 then .ok .hsNib3
  else if w = 0b00010#5 then .ok .hsNib2
  else .error (.notHandshakeNibble w)

/-! ## Lines of the program syntax (R97) -/

/-- The names a line can call. -/
inductive CallName where
  | host (op : HostOp)
  | pulseEnable
  | writeNibble
  | writeByte
  | send
  deriving DecidableEq, Repr

/-- The ASCII spelling of each name, the source's own names (R97, R45, R16). -/
def CallName.spelling : CallName → List Byte
  | .host .command => [0x63, 0x6F, 0x6D, 0x6D, 0x61, 0x6E, 0x64]
  | .host .writeChar => [0x77, 0x72, 0x69, 0x74, 0x65, 0x43, 0x68, 0x61, 0x72]
  | .host .init => [0x69, 0x6E, 0x69, 0x74]
  | .host .clear => [0x63, 0x6C, 0x65, 0x61, 0x72]
  | .host .home => [0x68, 0x6F, 0x6D, 0x65]
  | .host .setCursor => [0x73, 0x65, 0x74, 0x43, 0x75, 0x72, 0x73, 0x6F, 0x72]
  | .host .display => [0x64, 0x69, 0x73, 0x70, 0x6C, 0x61, 0x79]
  | .host .noDisplay => [0x6E, 0x6F, 0x44, 0x69, 0x73, 0x70, 0x6C, 0x61, 0x79]
  | .host .cursor => [0x63, 0x75, 0x72, 0x73, 0x6F, 0x72]
  | .host .noCursor => [0x6E, 0x6F, 0x43, 0x75, 0x72, 0x73, 0x6F, 0x72]
  | .host .blink => [0x62, 0x6C, 0x69, 0x6E, 0x6B]
  | .host .noBlink => [0x6E, 0x6F, 0x42, 0x6C, 0x69, 0x6E, 0x6B]
  | .host .scrollDisplayLeft => [0x73, 0x63, 0x72, 0x6F, 0x6C, 0x6C, 0x44, 0x69, 0x73, 0x70, 0x6C, 0x61, 0x79, 0x4C, 0x65, 0x66, 0x74]
  | .host .scrollDisplayRight => [0x73, 0x63, 0x72, 0x6F, 0x6C, 0x6C, 0x44, 0x69, 0x73, 0x70, 0x6C, 0x61, 0x79, 0x52, 0x69, 0x67, 0x68, 0x74]
  | .host .leftToRight => [0x6C, 0x65, 0x66, 0x74, 0x54, 0x6F, 0x52, 0x69, 0x67, 0x68, 0x74]
  | .host .rightToLeft => [0x72, 0x69, 0x67, 0x68, 0x74, 0x54, 0x6F, 0x4C, 0x65, 0x66, 0x74]
  | .host .autoscroll => [0x61, 0x75, 0x74, 0x6F, 0x73, 0x63, 0x72, 0x6F, 0x6C, 0x6C]
  | .host .noAutoscroll => [0x6E, 0x6F, 0x41, 0x75, 0x74, 0x6F, 0x73, 0x63, 0x72, 0x6F, 0x6C, 0x6C]
  | .host .createChar => [0x63, 0x72, 0x65, 0x61, 0x74, 0x65, 0x43, 0x68, 0x61, 0x72]
  | .host .print => [0x70, 0x72, 0x69, 0x6E, 0x74]
  | .pulseEnable => [0x70, 0x75, 0x6C, 0x73, 0x65, 0x45, 0x6E, 0x61, 0x62, 0x6C, 0x65]
  | .writeNibble => [0x77, 0x72, 0x69, 0x74, 0x65, 0x4E, 0x69, 0x62, 0x62, 0x6C, 0x65]
  | .writeByte => [0x77, 0x72, 0x69, 0x74, 0x65, 0x42, 0x79, 0x74, 0x65]
  | .send => [0x73, 0x65, 0x6E, 0x64]

/-- Every name once. -/
def callNames : List CallName :=
  [.host .command, .host .writeChar, .host .init, .host .clear, .host .home, .host .setCursor, .host .display, .host .noDisplay, .host .cursor, .host .noCursor,
   .host .blink, .host .noBlink, .host .scrollDisplayLeft, .host .scrollDisplayRight, .host .leftToRight, .host .rightToLeft, .host .autoscroll, .host .noAutoscroll, .host .createChar, .host .print,
   .pulseEnable, .writeNibble, .writeByte, .send]

/-- The name a word spells, if any. -/
def lookupName (w : List Byte) : Option CallName :=
  callNames.find? (fun n => n.spelling = w)

/-- The parts of a line: a word (a name or a number), a quoted string, or one of the five marks. -/
inductive Token where
  | word (w : List Byte)
  | text (t : List Byte)
  | lparen
  | rparen
  | lbracket
  | rbracket
  | comma
  deriving DecidableEq, Repr

/-- Where the reader of a line stands: between parts, inside a word, or inside a quoted string (what was read of it
last comes first). -/
inductive LexState where
  | gap
  | word (rev : List Byte)
  | text (rev : List Byte)
  deriving DecidableEq, Repr

/-- The double quote. -/
def quoteMark : Byte := 0x22

/-- A character of a quoted string: printable ASCII other than the quote (R97 "a quoted ASCII string"). -/
def isTextChar (c : Byte) : Bool := 0x20 ≤ c.toNat && c.toNat < 0x7F && c ≠ quoteMark

/-- 0 to 9. -/
def isDigit (c : Byte) : Bool := 0x30 ≤ c.toNat && c.toNat ≤ 0x39

/-- A letter or a digit. -/
def isWordChar (c : Byte) : Bool :=
  isDigit c || (0x41 ≤ c.toNat && c.toNat ≤ 0x5A) || (0x61 ≤ c.toNat && c.toNat ≤ 0x7A)

/-- The mark a character is, if it is one. -/
def markOf (c : Byte) : Option Token :=
  if c = 0x28 then some .lparen
  else if c = 0x29 then some .rparen
  else if c = 0x5B then some .lbracket
  else if c = 0x5D then some .rbracket
  else if c = 0x2C then some .comma
  else none

/-- One character read between parts: the parts it completes and the state after it. -/
def lexGap (c : Byte) : Except DecodeError (List Token × LexState) :=
  if isWordChar c then .ok ([], .word [c])
  else if c = quoteMark then .ok ([], .text [])
  else if c = 0x20 then .ok ([], .gap)
  else match markOf c with
    | some t => .ok ([t], .gap)
    | none => .error (.badCharacter c)

/-- One character read. A word ends at the first character that is not of a word. -/
def lexStep (st : LexState) (c : Byte) : Except DecodeError (List Token × LexState) :=
  match st with
  | .gap => lexGap c
  | .word rev =>
    if isWordChar c then .ok ([], .word (c :: rev))
    else match lexGap c with
      | .ok (ts, st') => .ok (.word rev.reverse :: ts, st')
      | .error e => .error e
  | .text rev =>
    if c = quoteMark then .ok ([.text rev.reverse], .gap)
    else if isTextChar c then .ok ([], .text (c :: rev))
    else .error (.badCharacter c)

/-- The end of the line. -/
def lexEnd : LexState → Except DecodeError (List Token)
  | .gap => .ok []
  | .word rev => .ok [.word rev.reverse]
  | .text _ => .error .openString

/-- The parts of a line, from a reading state. -/
def lexFrom (st : LexState) : List Byte → Except DecodeError (List Token)
  | [] => lexEnd st
  | c :: cs =>
    match lexStep st c with
    | .error e => .error e
    | .ok (ts, st') =>
      match lexFrom st' cs with
      | .error e => .error e
      | .ok us => .ok (ts ++ us)

/-- The value of a hexadecimal digit, either case. -/
def hexValue (c : Byte) : Option Nat :=
  if isDigit c then some (c.toNat - 0x30)
  else if 0x41 ≤ c.toNat && c.toNat ≤ 0x46 then some (c.toNat - 0x37)
  else if 0x61 ≤ c.toNat && c.toNat ≤ 0x66 then some (c.toNat - 0x57)
  else none

/-- The value of a decimal digit. -/
def decValue (c : Byte) : Option Nat :=
  if isDigit c then some (c.toNat - 0x30) else none

/-- The number a list of digits writes in a base, most significant digit first. -/
def digitsFrom (base : Nat) (digit : Byte → Option Nat) (acc : Nat) : List Byte → Option Nat
  | [] => some acc
  | c :: cs =>
    match digit c with
    | some d => digitsFrom base digit (base * acc + d) cs
    | none => none

/-- The number a word writes, decimal or `0x` hex (R97). -/
def numberOf : List Byte → Option Nat
  | [] => none
  | [c] => digitsFrom 10 decValue 0 [c]
  | [c, d] => digitsFrom 10 decValue 0 [c, d]
  | c :: d :: e :: cs =>
    if c = 0x30 ∧ d = 0x78 then digitsFrom 16 hexValue 0 (e :: cs)
    else digitsFrom 10 decValue 0 (c :: d :: e :: cs)

/-- A u8 argument (R10, D2). -/
def byteOf (w : List Byte) : Except DecodeError Byte :=
  match numberOf w with
  | none => .error (.badNumber w)
  | some n => if n < 256 then .ok (BitVec.ofNat 8 n) else .error (.tooWide n)

/-- `true` or `false`, the second argument of `send` (R120). -/
def boolOf (w : List Byte) : Except DecodeError Bool :=
  if w = [0x74, 0x72, 0x75, 0x65] then .ok true
  else if w = [0x66, 0x61, 0x6C, 0x73, 0x65] then .ok false
  else .error .badArguments

/-- The arguments `)` : none. -/
def noOperands (toks : List Token) (i : Instr) : Except DecodeError Instr :=
  match toks with
  | [.rparen] => .ok i
  | _ => .error .badArguments

/-- The arguments `v )`. -/
def oneByte (toks : List Token) (f : Byte → Instr) : Except DecodeError Instr :=
  match toks with
  | [.word w, .rparen] =>
    match byteOf w with
    | .ok v => .ok (f v)
    | .error e => .error e
  | _ => .error .badArguments

/-- The arguments `a , b )`. -/
def twoBytes (toks : List Token) (f : Byte → Byte → Instr) : Except DecodeError Instr :=
  match toks with
  | [.word a, .comma, .word b, .rparen] =>
    match byteOf a with
    | .error e => .error e
    | .ok x =>
      match byteOf b with
      | .ok y => .ok (f x y)
      | .error e => .error e
  | _ => .error .badArguments

/-- The arguments `v , true )` or `v , false )`. -/
def byteAndBool (toks : List Token) (f : Byte → Bool → Instr) : Except DecodeError Instr :=
  match toks with
  | [.word a, .comma, .word b, .rparen] =>
    match byteOf a with
    | .error e => .error e
    | .ok x =>
      match boolOf b with
      | .ok y => .ok (f x y)
      | .error e => .error e
  | _ => .error .badArguments

/-- The numbers of a bracketed list after its first bracket, up to `] )`. -/
def byteItems : List Token → Except DecodeError (List Byte)
  | [.rbracket, .rparen] => .ok []
  | [.word w, .rbracket, .rparen] =>
    match byteOf w with
    | .ok v => .ok [v]
    | .error e => .error e
  | .word w :: .comma :: more =>
    match byteOf w with
    | .error e => .error e
    | .ok v =>
      match byteItems more with
      | .ok vs => .ok (v :: vs)
      | .error e => .error e
  | _ => .error .badArguments

/-- Exactly eight rows make a glyph (R180). -/
def glyphOf : List Byte → Except DecodeError Glyph
  | [a, b, c, d, e, f, g, h] => .ok ⟨a, b, c, d, e, f, g, h⟩
  | bs => .error (.notEightRows bs.length)

/-- The arguments `location , [ g0 , ... , g7 ] )`. -/
def glyphOperands (toks : List Token) : Except DecodeError Instr :=
  match toks with
  | .word l :: .comma :: .lbracket :: more =>
    match byteOf l with
    | .error e => .error e
    | .ok loc =>
      match byteItems more with
      | .error e => .error e
      | .ok bs =>
        match glyphOf bs with
        | .ok g => .ok (.createChar loc g)
        | .error e => .error e
  | _ => .error .badArguments

/-- The arguments `"text" )`, or `[ b0 , ... ] )` for bytes a quoted string cannot hold (log entry 23). -/
def textOperand (toks : List Token) : Except DecodeError Instr :=
  match toks with
  | [.text t, .rparen] => .ok (.print t)
  | .lbracket :: more =>
    match byteItems more with
    | .ok bs => .ok (.print bs)
    | .error e => .error e
  | _ => .error .badArguments

/-- The operands of each name (R45, R10). -/
def operands (n : CallName) (toks : List Token) : Except DecodeError Instr :=
  match n with
  | .pulseEnable => noOperands toks .pulseEnable
  | .writeNibble => oneByte toks .writeNibble
  | .writeByte => oneByte toks .writeByte
  | .send => byteAndBool toks .send
  | .host .command => oneByte toks .command
  | .host .writeChar => oneByte toks .writeChar
  | .host .setCursor => twoBytes toks .setCursor
  | .host .createChar => glyphOperands toks
  | .host .print => textOperand toks
  | .host .init => noOperands toks .init
  | .host .clear => noOperands toks .clear
  | .host .home => noOperands toks .home
  | .host .display => noOperands toks .display
  | .host .noDisplay => noOperands toks .noDisplay
  | .host .cursor => noOperands toks .cursor
  | .host .noCursor => noOperands toks .noCursor
  | .host .blink => noOperands toks .blink
  | .host .noBlink => noOperands toks .noBlink
  | .host .scrollDisplayLeft => noOperands toks .scrollDisplayLeft
  | .host .scrollDisplayRight => noOperands toks .scrollDisplayRight
  | .host .leftToRight => noOperands toks .leftToRight
  | .host .rightToLeft => noOperands toks .rightToLeft
  | .host .autoscroll => noOperands toks .autoscroll
  | .host .noAutoscroll => noOperands toks .noAutoscroll

/-- A line's parts: a name, the opening bracket, the arguments (R97). -/
def parseCall : List Token → Except DecodeError Instr
  | .word w :: .lparen :: toks =>
    match lookupName w with
    | some n => operands n toks
    | none => .error (.unknownName w)
  | _ => .error .notACall

/-- The instruction a line of the program syntax writes. -/
def decodeLine (line : List Byte) : Except DecodeError Instr :=
  match lexFrom .gap line with
  | .ok toks => parseCall toks
  | .error e => .error e

/-- The instruction a written form stands for. -/
def decode : Code → Except DecodeError Instr
  | .bus9 w => .ok (decodeBus9 w)
  | .nib4 w => decodeNib4 w
  | .call line => decodeLine line

/-- The written form whose bits are w as spec/opcode_table.json numbers them: 9 bits (two whole bytes) a `bus9` word,
5 bits (one byte) a `nib4` word; a set bit above the format's own is no word of it. -/
def tableCode (nbits w : Nat) : Option Code :=
  if nbits ≤ 8 then
    if w < 32 then some (.nib4 (BitVec.ofNat 5 w)) else none
  else if nbits ≤ 16 then
    if w < 512 then some (.bus9 (BitVec.ofNat 9 w)) else none
  else none

/-- The instruction the decoder reads from a word of the opcode table. -/
def decodeTableWord (nbits w : Nat) : Option Instr :=
  match tableCode nbits w with
  | none => none
  | some c =>
    match decode c with
    | .ok i => some i
    | .error _ => none

/-- A program text's lines (R97 "one per line"): what stands between line feeds. -/
def linesFrom (rev : List Byte) : List Byte → List (List Byte)
  | [] => if rev.isEmpty then [] else [rev.reverse]
  | c :: cs =>
    if c = 0x0A then
      if rev.isEmpty then linesFrom [] cs else rev.reverse :: linesFrom [] cs
    else linesFrom (c :: rev) cs

/-- The host requests of a program text, in order; empty lines are no request. -/
def programRequests (program : List Byte) : List Request :=
  (linesFrom [] program).map fun l => ⟨.host, .call l⟩

/-! ## The encoder -/

/-- One hexadecimal digit, capitals. -/
def hexDigit (n : Nat) : Byte :=
  if n < 10 then BitVec.ofNat 8 (0x30 + n) else BitVec.ofNat 8 (0x37 + n)

/-- A u8 as `0xNN`. -/
def renderByte (b : Byte) : List Byte :=
  [0x30, 0x78, hexDigit (b.toNat / 16), hexDigit (b.toNat % 16)]

/-- `true` or `false`. -/
def renderBool (b : Bool) : List Byte :=
  if b then [0x74, 0x72, 0x75, 0x65] else [0x66, 0x61, 0x6C, 0x73, 0x65]

/-- Arguments with `, ` between them. -/
def joinArgs : List (List Byte) → List Byte
  | [] => []
  | [a] => a
  | a :: b :: rest => a ++ [0x2C, 0x20] ++ joinArgs (b :: rest)

/-- A bracketed list of numbers. -/
def renderList (bs : List Byte) : List Byte :=
  [0x5B] ++ joinArgs (bs.map renderByte) ++ [0x5D]

/-- The text of `print`: a quoted string where a quoted string can hold it, else a bracketed list. -/
def renderText (t : List Byte) : List Byte :=
  if t.all isTextChar then [quoteMark] ++ t ++ [quoteMark] else renderList t

/-- `name(arg, ...)` (R97). -/
def callLine (n : CallName) (args : List (List Byte)) : List Byte :=
  n.spelling ++ [0x28] ++ joinArgs args ++ [0x29]

/-- The written form of an instruction: the patterns of R81 and R91, the call form of R97. -/
def encode : Instr → Code
  | .clearDisplay => .bus9 0b000000001
  | .returnHome x => .bus9 (0b00000001#8 ++ x)
  | .entryModeSet i s => .bus9 (0b0000001#7 ++ BitVec.ofBool i ++ BitVec.ofBool s)
  | .displayControl d c b => .bus9 (0b000001#6 ++ BitVec.ofBool d ++ BitVec.ofBool c ++ BitVec.ofBool b)
  | .cursorShift m r x => .bus9 (0b00001#5 ++ BitVec.ofBool m ++ BitVec.ofBool r ++ x)
  | .functionSet l n f x => .bus9 (0b0001#4 ++ BitVec.ofBool l ++ BitVec.ofBool n ++ BitVec.ofBool f ++ x)
  | .setCgramAddr a => .bus9 (0b001#3 ++ a)
  | .setDdramAddr a => .bus9 (0b01#2 ++ a)
  | .data d => .bus9 (0b1#1 ++ d)
  | .nonInstr00 => .bus9 0b000000000
  | .hsNib3 => .nib4 0b00011
  | .hsNib2 => .nib4 0b00010
  | .pulseEnable => .call (callLine .pulseEnable [])
  | .writeNibble v => .call (callLine .writeNibble [renderByte v])
  | .writeByte v => .call (callLine .writeByte [renderByte v])
  | .send v d => .call (callLine .send [renderByte v, renderBool d])
  | .command v => .call (callLine (.host .command) [renderByte v])
  | .writeChar v => .call (callLine (.host .writeChar) [renderByte v])
  | .setCursor col row => .call (callLine (.host .setCursor) [renderByte col, renderByte row])
  | .createChar loc g => .call (callLine (.host .createChar) [renderByte loc, renderList g.rows])
  | .print t => .call (callLine (.host .print) [renderText t])
  | .init => .call (callLine (.host .init) [])
  | .clear => .call (callLine (.host .clear) [])
  | .home => .call (callLine (.host .home) [])
  | .display => .call (callLine (.host .display) [])
  | .noDisplay => .call (callLine (.host .noDisplay) [])
  | .cursor => .call (callLine (.host .cursor) [])
  | .noCursor => .call (callLine (.host .noCursor) [])
  | .blink => .call (callLine (.host .blink) [])
  | .noBlink => .call (callLine (.host .noBlink) [])
  | .scrollDisplayLeft => .call (callLine (.host .scrollDisplayLeft) [])
  | .scrollDisplayRight => .call (callLine (.host .scrollDisplayRight) [])
  | .leftToRight => .call (callLine (.host .leftToRight) [])
  | .rightToLeft => .call (callLine (.host .rightToLeft) [])
  | .autoscroll => .call (callLine (.host .autoscroll) [])
  | .noAutoscroll => .call (callLine (.host .noAutoscroll) [])

end Sys2Proof
end

