-- ==== Sys2Proof/Machine/Fetch.lean ====
section
/-! DEFINITION. Where the next instruction comes from. The block fetches nothing from a memory (10_state.md R22,
20_memory.md R74): it runs what is requested of it, one request at a time (60_exceptions.md R213). The requests wait in
`pending`; the first is decoded, and it must be one its caller may make (R45). -/

namespace Sys2Proof.Machine

/-- What stands first. -/
inductive Fetched where
  /-- nothing is requested -/
  | idle
  /-- what is requested has no meaning -/
  | stop (r : Refusal)
  /-- an instruction, and the state with its request taken off the queue -/
  | run (i : Instr) (s : State)
  deriving DecidableEq, Repr

/-- The next instruction. -/
def fetch (s : State) : Fetched :=
  match s.pending with
  | [] => .idle
  | r :: rest =>
    match decode r.code with
    | .error e => .stop (.undecodable e)
    | .ok i =>
      if WellFormed r.caller i then .run i { s with pending := rest }
      else .stop (.notRequestable r.caller i)

/-- The host makes the requests of a program text (R97) after those already waiting. -/
def load (program : List Byte) (s : State) : State :=
  { s with pending := s.pending ++ programRequests program }

end Sys2Proof.Machine
end

