-- ==== Sys2Proof/Machine/Step.lean ====
section
/-! DEFINITION. One step: the first pending request runs to completion (10_state.md R22). With nothing requested the
block does nothing. -/

namespace Sys2Proof.Machine

/-- One step of the machine. -/
def step (s : State) : Host.Outcome State Fault Refusal :=
  match fetch s with
  | .idle => .next s
  | .stop r => .refused r
  | .run i s' => exec i s'

/-- The state whose next step runs the word w of the opcode table: that word is put first among what is pending, as one
of the block's own transfers (log entry 3). A word of no format of the table leaves the state as it is. -/
def State.withFetchWord (s : State) (nbits w : Nat) : State :=
  match tableCode nbits w with
  | none => s
  | some c => { s with pending := ⟨.block, c⟩ :: s.pending }

end Sys2Proof.Machine
end

