-- ==== Sys2Proof/Machine/Latches.lean ====
section
/-! DEFINITION. What the trace says at the lines: levels (10_state.md R42), the latches a reader of the lines sees
(30_encoding.md R93), the bus words they make up (R92), and the counts and lower bounds of time a trace carries
(42_init.md R142, 70_reset_and_hazards.md R250, R252). Functions of a trace; no operation of the block reads them (R123). -/

namespace Sys2Proof.Machine

/-! ## Line levels -/

/-- The level of the last `Set` on a line (R42), if there is one. -/
def lastSet (l : LineId) : List Event → Option Bool
  | [] => none
  | e :: es =>
    match lastSet l es with
    | some b => some b
    | none =>
      match e with
      | .set l' b => if l' = l then some b else none
      | .cfg _ => none
      | .dly _ => none
      | .fatal _ => none

/-- The level of a line after the events so far: the last `Set`'s, and a free value before any (R41, log entry 10). -/
def level (l : LineId) (es : List Event) : Bool := (lastSet l es).getD (Config.freeLevel l)

/-- Whether a line has been configured as an output (R41). -/
def isOutput (l : LineId) (es : List Event) : Bool := es.contains (.cfg l)

/-! ## Latches (R93) -/

/-- One latch: the level of register-select and the value on the used data lines. -/
structure Latch where
  rs : Bool
  value : Byte
  deriving DecidableEq, Repr

/-- The sum of the lines' levels, line i worth `2 ^ i` (R93), from bit `i` up. -/
def sampleFrom (es : List Event) (i : Nat) : List LineId → Nat
  | [] => 0
  | l :: ls => (if level l es then 2 ^ i else 0) + sampleFrom es (i + 1) ls

/-- What stands in a sample for `n` lines from index `i` on that the configuration does not have: free bits.
DESIGN CHOICE, safe (D28, log entry 35). -/
def missingFrom (i : Nat) : Nat → Nat
  | 0 => 0
  | n + 1 => (if Config.freeMissing i then 2 ^ i else 0) + missingFrom (i + 1) n

/-- What a latch samples after the events so far (R93): the used data lines, and a free bit for each line of the bus width
that `pins.data` lacks (the model's choice, log entry 35). -/
def sample (c : Configuration) (es : List Event) : Latch :=
  { rs := level c.pins.rs es
    value := BitVec.ofNat 8 (sampleFrom es 0 (usedData c)
      + missingFrom (usedData c).length (busLines c.busWidth - (usedData c).length)) }

/-- Whether an event is the falling edge of enable: `Set(en, 0)` after a `Set(en, 1)` (R93, D8, log entry 9). An
unknown level before the first `Set` makes no edge. -/
def isFalling (c : Configuration) (before : List Event) (e : Event) : Bool :=
  e = .set c.pins.en false && lastSet c.pins.en before = some true

/-- The latches of `es`, read after the events `before`. -/
def latchesFrom (c : Configuration) (before : List Event) : List Event → List Latch
  | [] => []
  | e :: es =>
    (if isFalling c before e then [sample c before] else []) ++ latchesFrom c (before ++ [e]) es

/-- `Latches(trace)` (R93). -/
def latches (c : Configuration) (es : List Event) : List Latch := latchesFrom c [] es

/-! ## Bus words and latches (R80, R92) -/

/-- One bus word `(rs, d)` (R80). -/
structure BusWord where
  rs : Bool
  d : Byte
  deriving DecidableEq, Repr

/-- The latches that transfer one bus word (R92): one byte under EightBit; under FourBit the high nibble, then the
low nibble (R64), with the same rs. -/
def wordLatches (b : BusWidth) (w : BusWord) : List Latch :=
  match b with
  | .eightBit => [⟨w.rs, w.d⟩]
  | .fourBit => [⟨w.rs, w.d >>> 4⟩, ⟨w.rs, w.d &&& 0x0F#8⟩]

/-- The latches of bus words in order. -/
def wordsLatches (b : BusWidth) (ws : List BusWord) : List Latch := ws.flatMap (wordLatches b)

/-- The bus words that the latches of WHOLE words make up (R92): in pairs, the high nibble first. `none` where a pair is
broken or its two halves differ in rs. The handshake's bare nibbles are no halves of words: `frames` tells them apart. -/
def pairLatches : List Latch → Option (List BusWord)
  | [] => some []
  | [_] => none
  | hi :: lo :: rest =>
    if hi.rs = lo.rs then
      match pairLatches rest with
      | some ws => some (⟨hi.rs, (hi.value <<< 4) ||| lo.value⟩ :: ws)
      | none => none
    else none

/-- The bus words of the latches of whole words: each alone under EightBit, in pairs under FourBit (R92). -/
def latchWords (b : BusWidth) (ls : List Latch) : Option (List BusWord) :=
  match b with
  | .eightBit => some (ls.map fun l => ⟨l.rs, l.value⟩)
  | .fourBit => pairLatches ls

/-- A bus word as the 9 bits rs d7..d0 of R80. -/
def BusWord.bits (w : BusWord) : BitVec 9 := BitVec.ofBool w.rs ++ w.d

/-! ## Where the words of a whole trace begin (R92)

Under FourBit the four latches after the start of `init` are bare handshake nibbles (R91); every other latch, until the next
`init`, is half of a bus word. Nothing in a latch says which it is: the reader counts from the start of `init` (log entry 36,
DEDUCED). -/

/-- What a reader of the trace meets: the start of an `init`, or a latch. -/
inductive Mark where
  /-- `init` configures register-select (R134); no other operation configures a line (R41) -/
  | initStart
  | latch (l : Latch)
  deriving DecidableEq, Repr

/-- The marks of `es`, read after the events `before`. -/
def marksFrom (c : Configuration) (before : List Event) : List Event → List Mark
  | [] => []
  | e :: es =>
    (if e = .cfg c.pins.rs then [.initStart]
      else if isFalling c before e then [.latch (sample c before)] else [])
      ++ marksFrom c (before ++ [e]) es

/-- What the latches of a trace are: bare handshake nibbles and bus words. -/
inductive Frame where
  | handshake (l : Latch)
  | word (w : BusWord)
  deriving DecidableEq, Repr

/-- How many bare nibbles follow the start of `init` (R91): under EightBit the handshake uses full bus words. -/
def handshakeLatches (b : BusWidth) : Nat :=
  match b with
  | .fourBit => 4
  | .eightBit => 0

/-- The frames of marks, `skip` handshake nibbles still to come and `half` a word's high nibble already read. `none` where
the marks end or `init` starts inside a word or a handshake, or a word's two halves differ in rs. -/
def framesFrom (b : BusWidth) (skip : Nat) (half : Option Latch) : List Mark → Option (List Frame)
  | [] => if skip = 0 ∧ half = none then some [] else none
  | .initStart :: ms => if skip = 0 ∧ half = none then framesFrom b (handshakeLatches b) none ms else none
  | .latch l :: ms =>
    match skip, b, half with
    | k + 1, _, _ => (framesFrom b k none ms).map (.handshake l :: ·)
    | 0, .eightBit, _ => (framesFrom b 0 none ms).map (.word ⟨l.rs, l.value⟩ :: ·)
    | 0, .fourBit, none => framesFrom b 0 (some l) ms
    | 0, .fourBit, some hi =>
      if hi.rs = l.rs then (framesFrom b 0 none ms).map (.word ⟨hi.rs, (hi.value <<< 4) ||| l.value⟩ :: ·) else none

/-- The frames of a whole trace (R92), from its first event on. -/
def frames (c : Configuration) (es : List Event) : Option (List Frame) := framesFrom c.busWidth 0 none (marksFrom c [] es)

/-! ## Counts and time -/

/-- How many `Cfg` events. -/
def countCfg (es : List Event) : Nat := es.countP fun e => match e with | .cfg _ => true | _ => false

/-- How many `Set` events. -/
def countSet (es : List Event) : Nat := es.countP fun e => match e with | .set _ _ => true | _ => false

/-- How many `Dly` events. -/
def countDly (es : List Event) : Nat := es.countP fun e => match e with | .dly _ => true | _ => false

/-- The lower bound on the time a trace takes: the sum of its `Dly` bounds (R250, R252). -/
def minDuration : List Event → Nat
  | [] => 0
  | .dly t :: es => t + minDuration es
  | .cfg _ :: es => minDuration es
  | .set _ _ :: es => minDuration es
  | .fatal _ :: es => minDuration es

/-- What an implementation is seen to do: its calls, and how long each delay lasted (R40). -/
inductive Observed where
  | cfg (l : LineId)
  | set (l : LineId) (b : Bool)
  | waited (t : Nat)
  | fatal (k : ErrorKind)
  deriving DecidableEq, Repr

/-- One observed call carries out one event: the same call, a delay any time at or above its bound (R43, I7). -/
def carriesOut (e : Event) (o : Observed) : Bool :=
  match e, o with
  | .cfg l, .cfg l' => l = l'
  | .set l b, .set l' b' => l = l' && b = b'
  | .dly t, .waited t' => t ≤ t'
  | .fatal k, .fatal k' => k = k'
  | _, _ => false

/-- Conformance of an observed run to a trace (R40, R250): event for event, in order. -/
def conforms : List Event → List Observed → Bool
  | [], [] => true
  | e :: es, o :: os => carriesOut e o && conforms es os
  | _, _ => false

/-- The time an observed run spent in delays. -/
def timeWaited : List Observed → Nat
  | [] => 0
  | .waited t :: os => t + timeWaited os
  | .cfg _ :: os => timeWaited os
  | .set _ _ :: os => timeWaited os
  | .fatal _ :: os => timeWaited os

/-! ## Outcome codes (R201) -/

/-- The numeric code of an abnormal outcome (R201, D14); `Ok` has none. -/
def outcomeCode : Result → Option Nat
  | .ok => none
  | .okCount _ => none
  | .errInvalidConfiguration => some 1
  | .faulted (.notReady _) => some 2
  | .faulted .alreadyInitialized => some 3
  | .faulted (.busWidthMisuse _) => some 4
  | .refused _ => some 5

end Sys2Proof.Machine
end

