-- ==== Sys2Proof/Safety.lean ====
section
/-! DEFINITION. The terms claims are made in: when the lines are usable, when a request is answered by its own effect,
what a transfer carries, the invariant of the machine, a good run (60_exceptions.md R206), and the duties of the host the
block does not check (70_reset_and_hazards.md R242 to R244). -/

namespace Sys2Proof.Safety

open Sys2Proof.Machine

/-- The lines a transfer uses exist and are pairwise distinct, as `Valid` demands (R202, D28). -/
def LinesUsable (c : Configuration) : Prop :=
  busLines c.busWidth ≤ c.pins.data.length ∧ (c.pins.rs :: c.pins.en :: usedData c).Nodup

/-- Enable was not left high: the next `Set(en, 0)` is no falling edge (R110, R93). -/
def EnableIdle (s : State) : Prop := lastSet s.config.pins.en s.trace ≠ some true

/-- A host request other than `init` passes its guard (R204), on a valid configuration. -/
def Open (s : State) : Prop := s.fault = none ∧ s.life = .ready ∧ valid s.config = true

/-- The events of one `send` (R120, W1, W2): 21 under FourBit, 15 under EightBit. -/
def sendLength (b : BusWidth) : Nat :=
  match b with
  | .fourBit => 21
  | .eightBit => 15

/-- The holds of `T_PULSE` in one `send`: three a latch. -/
def sendHolds (b : BusWidth) : Nat :=
  match b with
  | .fourBit => 6
  | .eightBit => 3

/-- The six events of one enable pulse as R110 writes them, for an enable line and a hold. -/
def pulseOf (en : LineId) (t : Nat) : List Event :=
  [.set en false, .dly t, .set en true, .dly t, .set en false, .dly t]

/-- The events of one latch as R111 and R112 write them: bit i of the value on line i, ascending, then the pulse. -/
def latchOf (lines : List LineId) (en : LineId) (t : Nat) (v : Byte) : List Event :=
  (lines.zipIdx.map fun p => Event.set p.1 (v.getLsbD p.2)) ++ pulseOf en t

/-- The events of one latch of the used data lines (R24). -/
def usedLatch (c : Configuration) (v : Byte) : List Event := latchOf (usedData c) c.pins.en (tPulse c) v

/-- The events of one `send` as R120 writes them: register-select, then one byte latch, or the high nibble's latch and the
low nibble's. -/
def wordEvents (c : Configuration) (w : BusWord) : List Event :=
  .set c.pins.rs w.rs ::
    match c.busWidth with
    | .eightBit => usedLatch c w.d
    | .fourBit => usedLatch c (w.d >>> 4) ++ usedLatch c w.d

/-- The events of `init` as R130 and V30, V31 write them, in order: the line configuration, the settle and the idle levels,
the handshake with each of its delays where R136 and R137 put it, and steps 7 to 10 with `T_CLEAR` after the clear word.
`fs` is the function-set byte. -/
def initOf (c : Configuration) (fs : Byte) : List Event :=
  [.cfg c.pins.rs, .cfg c.pins.en] ++ (usedData c).map .cfg
    ++ [.dly (tPower c), .set c.pins.rs false, .set c.pins.en false]
    ++ (match c.busWidth with
      | .fourBit => usedLatch c 0x3 ++ [.dly (tHs41 c)] ++ usedLatch c 0x3 ++ [.dly (tHs42 c)]
          ++ usedLatch c 0x3 ++ [.dly (tHs43 c)] ++ usedLatch c 0x2
      | .eightBit => wordEvents c ⟨false, fs⟩ ++ [.dly (tHs81 c)] ++ wordEvents c ⟨false, fs⟩ ++ [.dly (tHs82 c)]
          ++ wordEvents c ⟨false, fs⟩)
    ++ wordEvents c ⟨false, fs⟩ ++ wordEvents c ⟨false, 0x0C⟩
    ++ wordEvents c ⟨false, 0x01⟩ ++ [.dly (tClear c)] ++ wordEvents c ⟨false, 0x06⟩

/-- What the events `es`, emitted from state `s`, carry: they ARE the events of one `send` for each of the bus words `ws` in
order and then one `Dly` for each of the waits (R120, R40); and so the latches read off the lines are exactly those of the
words (R92, R93), and the number of events and the lower bound of their time are the sums (R252). -/
def Carries (s : State) (es : List Event) (ws : List BusWord) (waits : List Nat) : Prop :=
  es = ws.flatMap (wordEvents s.config) ++ waits.map .dly
    ∧ latchesFrom s.config s.trace es = wordsLatches s.config.busWidth ws
    ∧ es.length = sendLength s.config.busWidth * ws.length + waits.length
    ∧ minDuration es = sendHolds s.config.busWidth * ws.length * tPulse s.config + waits.sum

/-- A host request is turned away by its guard (R204, R206, R208): refused while a fault stands, else NotReady before
`Ready`; in neither case an event or any other change. -/
def GuardedBy (i : Instr) (op : HostOp) : Prop :=
  ∀ s : State,
    (s.fault ≠ none → exec i s = .next { s with result := some (.refused op) })
      ∧ (s.fault = none → s.life ≠ .ready →
          exec i s = .next { s with fault := some (.notReady op), result := some (.faulted (.notReady op)) })

/-- A request that, past its guard, changes nothing but the trace, answers `r`, and emits the events of the words `ws` and
after them the waits `waits s` (R98, R160 to R181). -/
def Sends (i : Instr) (op : HostOp) (ws : List BusWord) (waits : State → List Nat) (r : Result) : Prop :=
  GuardedBy i op ∧ ∀ s : State, Open s → EnableIdle s →
    ∃ es, exec i s = .next { s with trace := s.trace ++ es, result := some r } ∧ Carries s es ws (waits s)

/-- A request that, past its guard, gives `displayControl` the value `f` of its old one and sends
`DISPLAYCONTROL | displayControl` (R163 to R168, R85). -/
def UpdatesControl (i : Instr) (op : HostOp) (f : Byte → Byte) : Prop :=
  GuardedBy i op ∧ ∀ (s : State) (d : Byte), Open s → EnableIdle s → s.displayControl = some d →
    ∃ es, exec i s =
        .next { s with displayControl := some (f d), trace := s.trace ++ es, result := some .ok }
      ∧ Carries s es [⟨false, 0x08#8 ||| f d⟩] []

/-- A request that, past its guard, gives `displayMode` the value `f` of its old one and sends
`ENTRYMODESET | displayMode` (R171 to R174, R84). -/
def UpdatesMode (i : Instr) (op : HostOp) (f : Byte → Byte) : Prop :=
  GuardedBy i op ∧ ∀ (s : State) (m : Byte), Open s → EnableIdle s → s.displayMode = some m →
    ∃ es, exec i s =
        .next { s with displayMode := some (f m), trace := s.trace ++ es, result := some .ok }
      ∧ Carries s es [⟨false, 0x04#8 ||| f m⟩] []

/-- `displayFunction` as R29's table gives it: bit 4 iff EightBit, bit 3 iff more than one row, bit 2 iff 5x10 is asked
for and there is one row. -/
def functionBits (c : Configuration) : Byte :=
  (if c.busWidth = .eightBit then 0x10#8 else 0#8) ||| (if c.rows > 1 then 0x08#8 else 0#8)
    ||| (if c.font = .font5x10 ∧ c.rows = 1 then 0x04#8 else 0#8)

/-- Instructions one after the other, up to the first stop. -/
def runInstrs : List Instr → State → Host.Outcome State Fault Refusal
  | [], s => .next s
  | i :: is, s => andThen (exec i s) (runInstrs is)

/-- The ten mask operations (R163 to R168, R171 to R174). -/
def maskOperations : List Instr :=
  [.display, .noDisplay, .cursor, .noCursor, .blink, .noBlink,
   .leftToRight, .rightToLeft, .autoscroll, .noAutoscroll]

/-- The minimum duration of each host request in milliseconds, the table of R252. -/
def minimumMs (b : BusWidth) : HostOp → Nat → Nat
  | .init, _ => (match b with | .fourBit => 90 | .eightBit => 70)
  | .clear, _ => (match b with | .fourBit => 8 | .eightBit => 5)
  | .home, _ => (match b with | .fourBit => 8 | .eightBit => 5)
  | .createChar, _ => (match b with | .fourBit => 54 | .eightBit => 27)
  | .print, n => (match b with | .fourBit => 6 * n | .eightBit => 3 * n)
  | _, _ => (match b with | .fourBit => 6 | .eightBit => 3)

/-- How many characters a request prints. -/
def printLength : Instr → Nat
  | .print t => t.length
  | _ => 0

/-- The invariant of a block instance: what R28 to R33, R110 and R215 say of it between requests. -/
structure Inv (s : State) : Prop where
  /-- `Initializing` is never observable between operations (R28) -/
  settled : s.life ≠ .initializing
  /-- in `Ready` the configuration has passed `Valid` (R131) -/
  validWhenReady : s.life = .ready → valid s.config = true
  /-- `displayFunction` is the value of step 1 (R29, R132) -/
  functionWhenReady : s.life = .ready → s.displayFunction = some (functionMask s.config)
  /-- the row table is the value of step 2 (R32) -/
  rowsWhenReady : s.life = .ready → s.rowOffset = some (rowTable s.config.cols)
  /-- bits 7:3 of `displayControl` are 0 (R30) -/
  controlWhenReady : s.life = .ready → ∃ d, s.displayControl = some d ∧ d &&& 0xF8#8 = 0#8
  /-- bits 7:2 of `displayMode` are 0 (R31) -/
  modeWhenReady : s.life = .ready → ∃ m, s.displayMode = some m ∧ m &&& 0xFC#8 = 0#8
  /-- before `init` the masks and the table hold no value (R29 to R32, R230) -/
  emptyWhenNotReady : s.life ≠ .ready →
    s.displayFunction = none ∧ s.displayControl = none ∧ s.displayMode = none ∧ s.rowOffset = none
  /-- enable is low between requests (R110) -/
  enableLow : EnableIdle s
  /-- every delay is at least a whole millisecond (R215) -/
  delays : ∀ t, Event.dly t ∈ s.trace → 1 ≤ t
  /-- `NotReady` is raised before `Ready`, and a fault is never cleared (R204, R206) -/
  notReadyFault : ∀ op, s.fault = some (.notReady op) → s.life ≠ .ready
  /-- `AlreadyInitialized` is raised in `Ready` (R205) -/
  alreadyFault : s.fault = some .alreadyInitialized → s.life = .ready
  /-- `BusWidthMisuse` is raised under FourBit only (R207) -/
  misuseFault : ∀ v, s.fault = some (.busWidthMisuse v) → s.config.busWidth = .fourBit

/-- A run's last state is good only without a fault (R206). -/
def goodState (s : State) : Bool := s.fault.isNone

/-- Every request waiting is a line of the host's that the host may request (R45). -/
def HostProgram (rs : List Request) : Prop :=
  ∀ r ∈ rs, r.caller = .host ∧ ∃ i, decode r.code = .ok i ∧ WellFormed .host i = true

/-! ## Duties of the host (R242 to R244): what the block neither tracks nor enforces -/

/-- The class of a bus word that sets the controller's address (R81): `some true` CGRAM, `some false` DDRAM. -/
def setsAddress (w : BusWord) : Option Bool :=
  match decodeBus9 w.bits with
  | .setCgramAddr _ => some true
  | .setDdramAddr _ => some false
  | _ => none

/-- Whether the last address-setting word points into CGRAM (R35 (b), R190, R242). -/
def cgramMode (ws : List BusWord) : Bool := ((ws.filterMap setsAddress).getLast?).getD false

/-- Text output while the controller is in CGRAM mode (R242). -/
def glyphHazard (sent : List BusWord) (i : Instr) : Bool :=
  match i with
  | .writeChar _ => cgramMode sent
  | .print _ => cgramMode sent
  | _ => false

/-- A raw `0x01`, `0x02` or `0x03`, after which the host itself must wait (R243). -/
def rawTimingHazard (i : Instr) : Bool :=
  match i with
  | .command v => 1 ≤ v.toNat && v.toNat ≤ 3
  | _ => false

/-- A raw word that passes by the shadow masks, or sets the interface width against the block's own (R244, R96). -/
def rawShadowHazard (c : Configuration) (i : Instr) : Bool :=
  match i with
  | .command v =>
    match decodeBus9 (BusWord.bits ⟨false, v⟩) with
    | .displayControl _ _ _ => true
    | .entryModeSet _ _ => true
    | .functionSet eight _ _ _ => eight != decide (c.busWidth = .eightBit)
    | _ => false
  | _ => false

end Sys2Proof.Safety
end

