-- ==== Sys2Proof/Certificates/Slice0/Obligations.lean ====
section
/-! DEFINITION. The statements for the provers, from the numbered rules of spec/.

Common to them: `result` is where the model keeps a request's answer (R46, R209; log entry 2), and a request turned away by
R206 is answered `refused` there (log entry 14); numeric instruction values and the polarity of register-select are the
spec's, by its own account general knowledge (G1, G2; log entries 7, 8). Where a statement's events stand in an order that
is the spec's own decision (D5, D6), log entry 17 says so. -/

open Sys2Proof Sys2Proof.Machine Sys2Proof.Safety

/-! ## Encoding -/

/-- Decoding an encoded instruction gives it back, for every instruction and every operand: the patterns of R81 and R91
and the call form of R97 (whose bracketed lists are the model's, log entry 23) drop nothing. -/
def Obligations.DecodeEncodeRoundTrip : Prop :=
  ∀ i : Instr, decode (encode i) = .ok i

/-- Every 9-bit word rs d7..d0 is the word of the instruction it decodes to: the rows of R81, R90 and R95 (b) split the
512 words. -/
def Obligations.BusWordsEncodeBack : Prop :=
  ∀ w : BitVec 9, encode (decodeBus9 w) = .bus9 w

/-- R81, R90, R95: an instruction byte is classified by its most significant 1 bit, a word with rs = 1 is data: each class
by its mask and match. -/
def Obligations.BusWordClasses : Prop :=
  ∀ w : BitVec 9,
    (decodeBus9 w = .clearDisplay ↔ w &&& 0x1FF#9 = 0x001#9)
    ∧ ((∃ x, decodeBus9 w = .returnHome x) ↔ w &&& 0x1FE#9 = 0x002#9)
    ∧ ((∃ i s, decodeBus9 w = .entryModeSet i s) ↔ w &&& 0x1FC#9 = 0x004#9)
    ∧ ((∃ d c b, decodeBus9 w = .displayControl d c b) ↔ w &&& 0x1F8#9 = 0x008#9)
    ∧ ((∃ m r x, decodeBus9 w = .cursorShift m r x) ↔ w &&& 0x1F0#9 = 0x010#9)
    ∧ ((∃ l n f x, decodeBus9 w = .functionSet l n f x) ↔ w &&& 0x1E0#9 = 0x020#9)
    ∧ ((∃ a, decodeBus9 w = .setCgramAddr a) ↔ w &&& 0x1C0#9 = 0x040#9)
    ∧ ((∃ a, decodeBus9 w = .setDdramAddr a) ↔ w &&& 0x180#9 = 0x080#9)
    ∧ ((∃ d, decodeBus9 w = .data d) ↔ w &&& 0x100#9 = 0x100#9)
    ∧ (decodeBus9 w = .nonInstr00 ↔ w &&& 0x1FF#9 = 0x000#9)

/-- R91: of the 5-bit words exactly rs = 0 with nibble 3 and with nibble 2 are handshake nibbles; every other is
rejected by name. -/
def Obligations.HandshakeNibbleWords : Prop :=
  ∀ w : BitVec 5, decode (.nib4 w) =
    if w = 0b00011#5 then .ok .hsNib3
    else if w = 0b00010#5 then .ok .hsNib2
    else .error (.notHandshakeNibble w)

/-- Words written out from R82 to R90 decode to what they stand for. -/
def Obligations.SpecWordsDecode : Prop :=
  decodeTableWord 16 0x001 = some .clearDisplay
    ∧ decodeTableWord 16 0x002 = some (.returnHome 0)
    ∧ decodeTableWord 16 0x006 = some (.entryModeSet true false)
    ∧ decodeTableWord 16 0x00C = some (.displayControl true false false)
    ∧ decodeTableWord 16 0x01C = some (.cursorShift true true 0)
    ∧ decodeTableWord 16 0x038 = some (.functionSet true true false 0)
    ∧ decodeTableWord 16 0x048 = some (.setCgramAddr 0x08)
    ∧ decodeTableWord 16 0x0C3 = some (.setDdramAddr 0x43)
    ∧ decodeTableWord 16 0x148 = some (.data 0x48)
    ∧ decodeTableWord 16 0x000 = some .nonInstr00
    ∧ decodeTableWord 8 0x03 = some .hsNib3
    ∧ decodeTableWord 8 0x02 = some .hsNib2

/-! ## The step and who may ask -/

/-- The first pending request, where it decodes to an instruction its caller may ask for, is taken off the queue and runs
(R22; the queue is the model's, log entries 2 and 3). -/
def Obligations.StepRunsFirstRequest : Prop :=
  ∀ (s : State) (r : Request) (rest : List Request) (i : Instr),
    s.pending = r :: rest → decode r.code = .ok i → WellFormed r.caller i = true →
      step s = exec i { s with pending := rest }

/-- With nothing requested a step changes nothing; a form that is no instruction, and a host request for an internal
procedure (R45), have no meaning and are refused by name (log entries 21, 24). -/
def Obligations.StepWithoutAnInstruction : Prop :=
  ∀ s : State,
    (s.pending = [] → step s = .next s)
    ∧ (∀ (r : Request) (rest : List Request) (e : DecodeError),
        s.pending = r :: rest → decode r.code = .error e → step s = .refused (.undecodable e))
    ∧ (∀ (r : Request) (rest : List Request) (i : Instr),
        s.pending = r :: rest → decode r.code = .ok i → WellFormed r.caller i = false →
          step s = .refused (.notRequestable r.caller i))

/-- R45: the host may request exactly these operations, and every one but `init` requires `Ready`. -/
def Obligations.HostRequestsAreExactlyThese : Prop :=
  (∀ i : Instr, WellFormed .host i = true ↔
      i = .init ∨ (∃ v, i = .command v) ∨ (∃ v, i = .writeChar v) ∨ i = .clear ∨ i = .home
      ∨ (∃ col row, i = .setCursor col row) ∨ i = .display ∨ i = .noDisplay ∨ i = .cursor ∨ i = .noCursor
      ∨ i = .blink ∨ i = .noBlink ∨ i = .scrollDisplayLeft ∨ i = .scrollDisplayRight
      ∨ i = .leftToRight ∨ i = .rightToLeft ∨ i = .autoscroll ∨ i = .noAutoscroll
      ∨ (∃ l g, i = .createChar l g) ∨ (∃ t, i = .print t))
    ∧ ∀ (i : Instr) (op : HostOp) (s : State), i.hostOp = some op → op ≠ .init → s.fault = none → s.life ≠ .ready →
        exec i s = .next { s with fault := some (.notReady op), result := some (.faulted (.notReady op)) }

/-! ## The bit transfer layer -/

/-- R110: the enable pulse is low, high, low, each level held for `T_PULSE`, which is at least 1 ms: six events and
nothing else, in every state. -/
def Obligations.PulseEnableEvents : Prop :=
  ∀ s : State,
    1 ≤ tPulse s.config
    ∧ exec .pulseEnable s =
        .next { s with trace := s.trace ++
          [.set s.config.pins.en false, .dly (tPulse s.config),
           .set s.config.pins.en true, .dly (tPulse s.config),
           .set s.config.pins.en false, .dly (tPulse s.config)] }

/-- R111: `writeNibble` drives bits 3:0 on the first four data lines, bit i on line i in ascending i (D5), then pulses; bits 7:4 are ignored;
nothing else changes. -/
def Obligations.WriteNibbleEvents : Prop :=
  ∀ (s : State) (v : Byte) (d0 d1 d2 d3 : LineId) (rest : List LineId),
    s.config.pins.data = d0 :: d1 :: d2 :: d3 :: rest →
      exec (.writeNibble v) s =
          .next { s with trace := s.trace ++
            ([.set d0 (v.getLsbD 0), .set d1 (v.getLsbD 1), .set d2 (v.getLsbD 2), .set d3 (v.getLsbD 3)]
              ++ pulseOf s.config.pins.en (tPulse s.config)) }
      ∧ exec (.writeNibble v) s = exec (.writeNibble (v &&& 0x0F#8)) s

/-- R112, R207: `writeByte` drives all eight bits and pulses under EightBit; under FourBit it raises `BusWidthMisuse` with
the value before any event. -/
def Obligations.WriteByteEvents : Prop :=
  ∀ (s : State) (v : Byte),
    (s.config.busWidth = .fourBit →
      exec (.writeByte v) s =
        .next { s with fault := some (.busWidthMisuse v), result := some (.faulted (.busWidthMisuse v)) })
    ∧ (∀ (d0 d1 d2 d3 d4 d5 d6 d7 : LineId) (rest : List LineId),
        s.config.busWidth = .eightBit →
        s.config.pins.data = d0 :: d1 :: d2 :: d3 :: d4 :: d5 :: d6 :: d7 :: rest →
          exec (.writeByte v) s =
            .next { s with trace := s.trace ++
              ([.set d0 (v.getLsbD 0), .set d1 (v.getLsbD 1), .set d2 (v.getLsbD 2), .set d3 (v.getLsbD 3),
                .set d4 (v.getLsbD 4), .set d5 (v.getLsbD 5), .set d6 (v.getLsbD 6), .set d7 (v.getLsbD 7)]
                ++ pulseOf s.config.pins.en (tPulse s.config)) })

/-- A latch that would drive a data line the configuration does not have stops (log entry 12; D28, I13). -/
def Obligations.MissingDataLineStops : Prop :=
  ∀ (s : State) (v : Byte) (d : Bool),
    (s.config.pins.data.length < 4 →
      exec (.writeNibble v) s = .fault (.missingDataLine 4 s.config.pins.data.length))
    ∧ (s.config.busWidth = .eightBit → s.config.pins.data.length < 8 →
      exec (.writeByte v) s = .fault (.missingDataLine 8 s.config.pins.data.length))
    ∧ (s.config.pins.data.length < busLines s.config.busWidth →
      exec (.send v d) s = .fault (.missingDataLine (busLines s.config.busWidth) s.config.pins.data.length))

/-- R120, R64: `send` sets register-select (data = 1), then one byte latch under EightBit, or two nibble latches under
FourBit, the high nibble first; nothing but the trace changes. -/
def Obligations.SendEvents : Prop :=
  ∀ (s : State) (v : Byte) (isData : Bool),
    (∀ (d0 d1 d2 d3 : LineId) (rest : List LineId),
      s.config.busWidth = .fourBit → s.config.pins.data = d0 :: d1 :: d2 :: d3 :: rest →
        exec (.send v isData) s =
          .next { s with trace := s.trace ++
            ([.set s.config.pins.rs isData]
              ++ [.set d0 (v.getLsbD 4), .set d1 (v.getLsbD 5), .set d2 (v.getLsbD 6), .set d3 (v.getLsbD 7)]
              ++ pulseOf s.config.pins.en (tPulse s.config)
              ++ [.set d0 (v.getLsbD 0), .set d1 (v.getLsbD 1), .set d2 (v.getLsbD 2), .set d3 (v.getLsbD 3)]
              ++ pulseOf s.config.pins.en (tPulse s.config)) })
    ∧ (∀ (d0 d1 d2 d3 d4 d5 d6 d7 : LineId) (rest : List LineId),
      s.config.busWidth = .eightBit →
      s.config.pins.data = d0 :: d1 :: d2 :: d3 :: d4 :: d5 :: d6 :: d7 :: rest →
        exec (.send v isData) s =
          .next { s with trace := s.trace ++
            ([.set s.config.pins.rs isData]
              ++ [.set d0 (v.getLsbD 0), .set d1 (v.getLsbD 1), .set d2 (v.getLsbD 2), .set d3 (v.getLsbD 3),
                  .set d4 (v.getLsbD 4), .set d5 (v.getLsbD 5), .set d6 (v.getLsbD 6), .set d7 (v.getLsbD 7)]
              ++ pulseOf s.config.pins.en (tPulse s.config)) })

/-- R80, R92: each of the ten bus-word rows transfers its own word: it completes, changes nothing but the trace, and the
latches on the lines are those of the word its encoding writes. -/
def Obligations.BusWordTransfers : Prop :=
  ∀ (i : Instr) (w : BitVec 9) (s : State),
    encode i = .bus9 w → LinesUsable s.config → EnableIdle s →
      ∃ es, exec i s = .next { s with trace := s.trace ++ es }
        ∧ Carries s es [⟨w.getLsbD 8, w.extractLsb' 0 8⟩] []

/-- R91, R136: a handshake nibble is a bare latch of four lines: register-select is not driven, and with register-select
low the latch is `(0, 0x3)`, `(0, 0x2)`; ten events, nothing but the trace changes. -/
def Obligations.HandshakeNibbleTransfers : Prop :=
  ∀ s : State,
    s.config.busWidth = .fourBit → LinesUsable s.config → EnableIdle s →
    lastSet s.config.pins.rs s.trace = some false →
      (∃ es, exec .hsNib3 s = .next { s with trace := s.trace ++ es }
        ∧ latchesFrom s.config s.trace es = [⟨false, 0x3⟩] ∧ es.length = 10
        ∧ ∀ b, Event.set s.config.pins.rs b ∉ es)
      ∧ (∃ es, exec .hsNib2 s = .next { s with trace := s.trace ++ es }
        ∧ latchesFrom s.config s.trace es = [⟨false, 0x2⟩] ∧ es.length = 10
        ∧ ∀ b, Event.set s.config.pins.rs b ∉ es)

/-- R113: the bit transfer layer and `send` emit `Set` and `Dly` events only, and write no field of the state; only a
`writeByte` under FourBit records its fault instead. -/
def Obligations.TransferLayerWritesNothing : Prop :=
  ∀ (i : Instr) (s t : State),
    (i = .pulseEnable ∨ (∃ v, i = .writeNibble v) ∨ (∃ v, i = .writeByte v) ∨ (∃ v d, i = .send v d)) →
    exec i s = .next t →
      (∃ es, t = { s with trace := s.trace ++ es }
        ∧ ∀ e ∈ es, (∃ l b, e = Event.set l b) ∨ (∃ k, e = Event.dly k))
      ∨ (∃ v, i = .writeByte v ∧ s.config.busWidth = .fourBit
        ∧ t = { s with fault := some (.busWidthMisuse v), result := some (.faulted (.busWidthMisuse v)) })

/-! ## The command/data layer and the controller operations -/

/-- R121: `command(value)` is `send(value, false)` answered `Ok`, for any value; NotReady before `Ready`. -/
def Obligations.CommandSendsVerbatim : Prop :=
  ∀ v : Byte,
    Sends (.command v) .command [⟨false, v⟩] (fun _ => []) .ok
    ∧ ∀ s : State, Open s →
        ∃ t, exec (.send v false) s = .next t ∧ exec (.command v) s = .next { t with result := some .ok }

/-- R122: `writeChar(value)` is `send(value, true)` answered `Ok`, for any value; NotReady before `Ready`. -/
def Obligations.WriteCharSendsVerbatim : Prop :=
  ∀ v : Byte,
    Sends (.writeChar v) .writeChar [⟨true, v⟩] (fun _ => []) .ok
    ∧ ∀ s : State, Open s →
        ∃ t, exec (.send v true) s = .next t ∧ exec (.writeChar v) s = .next { t with result := some .ok }

/-- R160, R161: `clear` sends 0x01 and `home` sends 0x02, and AFTER the events of that send comes one `Dly(T_CLEAR)` of at
least 2 ms, the last event of the request; no mask changes. -/
def Obligations.ClearAndHome : Prop :=
  (∀ (i : Instr) (op : HostOp) (v : Byte), (i, op, v) ∈ [(Instr.clear, HostOp.clear, 0x01#8), (.home, .home, 0x02)] →
    GuardedBy i op
    ∧ ∀ s : State, Open s →
        (∃ t, exec (.send v false) s = .next t
          ∧ exec i s = .next { t with trace := t.trace ++ [.dly (tClear s.config)], result := some .ok })
        ∧ (EnableIdle s → ∃ es,
            exec i s = .next { s with trace := s.trace ++ (es ++ [.dly (tClear s.config)]), result := some .ok }
            ∧ Carries s es [⟨false, v⟩] []))
    ∧ ∀ c : Configuration, 2 ≤ tClear c

/-- R162, R63: `setCursor` clamps the row to `rows - 1`, does not clamp the column, and sends
`(0x80 | (col + rowOffset[r])) mod 256` (the mod is D12, log entry 18); no state is written. -/
def Obligations.SetCursorSendsAddress : Prop :=
  ∀ col row : Byte,
    GuardedBy (.setCursor col row) .setCursor
    ∧ ∀ (s : State) (t : RowOffsets), Open s → EnableIdle s → s.rowOffset = some t →
        ∃ es offset,
          rowEntry t (if row.toNat ≥ s.config.rows then s.config.rows - 1 else row.toNat) = some offset
          ∧ exec (.setCursor col row) s = .next { s with trace := s.trace ++ es, result := some .ok }
          ∧ Carries s es [⟨false, BitVec.ofNat 8 (0x80 ||| (col.toNat + offset.toNat))⟩] []

/-- R163 to R168: each of the six operations sets or clears its one bit of `displayControl`, keeps the others, and
re-sends `DISPLAYCONTROL | displayControl`. -/
def Obligations.DisplayControlOperations : Prop :=
  UpdatesControl .display .display (· ||| 0x04#8)
    ∧ UpdatesControl .noDisplay .noDisplay (· &&& 0xFB#8)
    ∧ UpdatesControl .cursor .cursor (· ||| 0x02#8)
    ∧ UpdatesControl .noCursor .noCursor (· &&& 0xFD#8)
    ∧ UpdatesControl .blink .blink (· ||| 0x01#8)
    ∧ UpdatesControl .noBlink .noBlink (· &&& 0xFE#8)

/-- R169, R170: the scrolls send 0x18 and 0x1C and write no state. -/
def Obligations.ScrollOperations : Prop :=
  Sends .scrollDisplayLeft .scrollDisplayLeft [⟨false, 0x18⟩] (fun _ => []) .ok
    ∧ Sends .scrollDisplayRight .scrollDisplayRight [⟨false, 0x1C⟩] (fun _ => []) .ok

/-- R171 to R174: each of the four operations sets or clears its one bit of `displayMode`, keeps the other, and re-sends
`ENTRYMODESET | displayMode`. -/
def Obligations.EntryModeOperations : Prop :=
  UpdatesMode .leftToRight .leftToRight (· ||| 0x02#8)
    ∧ UpdatesMode .rightToLeft .rightToLeft (· &&& 0xFD#8)
    ∧ UpdatesMode .autoscroll .autoscroll (· ||| 0x01#8)
    ∧ UpdatesMode .noAutoscroll .noAutoscroll (· &&& 0xFE#8)

/-- R180: `createChar` masks the location to 3 bits, sends the slot's CGRAM address and then the eight rows verbatim:
exactly nine bus words; no state is written. -/
def Obligations.CreateCharWritesGlyph : Prop :=
  ∀ (l : Byte) (g : Glyph),
    Sends (.createChar l g) .createChar
      [⟨false, 0x40#8 ||| ((l &&& 0x07#8) <<< 3)⟩, ⟨true, g.g0⟩, ⟨true, g.g1⟩, ⟨true, g.g2⟩, ⟨true, g.g3⟩,
        ⟨true, g.g4⟩, ⟨true, g.g5⟩, ⟨true, g.g6⟩, ⟨true, g.g7⟩] (fun _ => []) .ok

/-- R181: `print` writes every character in order, register-select at data for each, and answers their number (D13,
log entry 19); the empty text emits nothing. -/
def Obligations.PrintWritesText : Prop :=
  ∀ text : List Byte,
    Sends (.print text) .print (text.map fun c => ⟨true, c⟩) (fun _ => []) (.okCount text.length)

/-- R98: `print` is its `writeChar`s in order, `createChar` is a `command` and eight `writeChar`s, `clear` and `home` are a
`command` and a delay: the same trace and the same state, the answer apart. -/
def Obligations.PseudoOperationsExpand : Prop :=
  ∀ (s t : State), Open s →
    (∀ text : List Byte, exec (.print text) s = .next t →
      ∃ u, runInstrs (text.map .writeChar) s = .next u ∧ t = { u with result := t.result })
    ∧ (∀ (l : Byte) (g : Glyph), exec (.createChar l g) s = .next t →
      runInstrs (.command (0x40#8 ||| ((l &&& 0x07#8) <<< 3)) :: g.rows.map .writeChar) s = .next t)
    ∧ (exec .clear s = .next t →
      ∃ u, exec (.command 0x01) s = .next u ∧ t = { u with trace := u.trace ++ [.dly (tClear s.config)] })
    ∧ (exec .home s = .next t →
      ∃ u, exec (.command 0x02) s = .next u ∧ t = { u with trace := u.trace ++ [.dly (tClear s.config)] })

/-- W6, R163 to R174: a mask operation repeated gives the same masks and emits the same events again. -/
def Obligations.MaskOperationsRepeat : Prop :=
  ∀ (i : Instr) (s t u : State), i ∈ maskOperations → Open s → exec i s = .next t → exec i t = .next u →
    u.displayControl = t.displayControl ∧ u.displayMode = t.displayMode
      ∧ ∃ es, t.trace = s.trace ++ es ∧ u.trace = t.trace ++ es

/-- R174, C5: `autoscroll` then `noAutoscroll` leaves `displayMode` with bit 0 clear and its other bits kept: restored bit
for bit exactly when bit 0 was clear. -/
def Obligations.AutoscrollPair : Prop :=
  ∀ (s t u : State) (m : Byte), Open s → s.displayMode = some m →
    exec .autoscroll s = .next t → exec .noAutoscroll t = .next u →
      u.displayMode = some (m &&& 0xFE#8) ∧ (u.displayMode = s.displayMode ↔ m.getLsbD 0 = false)

/-! ## Initialization -/

/-- R130, R132, R133, R140, R141: on a valid configuration, with no fault and not `Ready`, `init` completes: `Ready`, the three
masks and the row table at their values, the answer `Ok`; nothing else but the trace changes. -/
def Obligations.InitCompletes : Prop :=
  ∀ s : State, s.fault = none → s.life ≠ .ready → valid s.config = true →
    ∃ es, exec .init s = .next { s with
      life := .ready
      displayFunction := some (functionBits s.config)
      displayControl := some 0x04
      displayMode := some 0x02
      rowOffset := some ⟨0x00, 0x40, BitVec.ofNat 8 s.config.cols, BitVec.ofNat 8 (0x40 + s.config.cols)⟩
      trace := s.trace ++ es
      result := some .ok }

/-- R130, R134 to R140: the events of `init` in order (`initOf`, as V30 and V31 write them), so where each delay stands: under
FourBit `T_HS4_1`, `T_HS4_2`, `T_HS4_3` after the first, second and third 0x3 nibble, under EightBit `T_HS8_1`, `T_HS8_2` and
none, `T_CLEAR` after the word 0x01, each at least its bound of R9. And the latches they make: under FourBit the nibbles
3, 3, 3, 2 and then the words FUNCTIONSET|df, 0x0C, 0x01, 0x06; under EightBit FUNCTIONSET|df four times, 0x0C, 0x01, 0x06;
all with rs = 0. (The order of `Cfg` and data-line events is D5, D6, log entry 17; the places of the handshake's delays C4,
D27, log entry 29.) -/
def Obligations.InitLatchSequence : Prop :=
  (∀ c : Configuration, 40 ≤ tPower c ∧ 5 ≤ tHs41 c ∧ 5 ≤ tHs42 c ∧ 2 ≤ tHs43 c ∧ 5 ≤ tHs81 c ∧ 2 ≤ tHs82 c
    ∧ 2 ≤ tClear c)
  ∧ ∀ s t : State, s.fault = none → s.life ≠ .ready → valid s.config = true → exec .init s = .next t →
      t.trace = s.trace ++ initOf s.config (0x20#8 ||| functionBits s.config)
      ∧ (EnableIdle s →
        latchesFrom s.config s.trace (initOf s.config (0x20#8 ||| functionBits s.config)) =
          match s.config.busWidth with
          | .fourBit => [⟨false, 0x3⟩, ⟨false, 0x3⟩, ⟨false, 0x3⟩, ⟨false, 0x2⟩]
              ++ wordsLatches .fourBit
                [⟨false, 0x20#8 ||| functionBits s.config⟩, ⟨false, 0x0C⟩, ⟨false, 0x01⟩, ⟨false, 0x06⟩]
          | .eightBit => [⟨false, 0x20#8 ||| functionBits s.config⟩, ⟨false, 0x20#8 ||| functionBits s.config⟩,
              ⟨false, 0x20#8 ||| functionBits s.config⟩, ⟨false, 0x20#8 ||| functionBits s.config⟩,
              ⟨false, 0x0C⟩, ⟨false, 0x01⟩, ⟨false, 0x06⟩])

/-- R142: the events of `init` by kind, and its minimum total delay: 137 events (6 Cfg, 90 Set, 41 Dly) and 90 ms under
FourBit, 121 (10, 86, 25) and 70 ms under EightBit, exact at the default timing, a lower bound at any other. -/
def Obligations.InitTotals : Prop :=
  ∀ s t : State, s.fault = none → s.life ≠ .ready → valid s.config = true → exec .init s = .next t →
    ∃ es, t.trace = s.trace ++ es
      ∧ (match s.config.busWidth with
        | .fourBit => es.length = 137 ∧ countCfg es = 6 ∧ countSet es = 90 ∧ countDly es = 41 ∧ 90 ≤ minDuration es
            ∧ (s.config.timing = .default → minDuration es = 90)
        | .eightBit => es.length = 121 ∧ countCfg es = 10 ∧ countSet es = 86 ∧ countDly es = 25 ∧ 70 ≤ minDuration es
            ∧ (s.config.timing = .default → minDuration es = 70))

/-- R134, R135: `init` first configures register-select, enable and the used data lines, then waits at least 40 ms, then
drives register-select and enable low (the order of the `Cfg` events is the spec's choice D6, log entry 17). -/
def Obligations.InitBeginsBySettling : Prop :=
  ∀ s t : State, s.fault = none → s.life ≠ .ready → valid s.config = true → exec .init s = .next t →
    40 ≤ tPower s.config
    ∧ ∃ es, t.trace = s.trace
        ++ ([.cfg s.config.pins.rs, .cfg s.config.pins.en] ++ (usedData s.config).map .cfg
          ++ [.dly (tPower s.config), .set s.config.pins.rs false, .set s.config.pins.en false] ++ es)

/-- R231: after `init` register-select and enable are low and the data lines hold the last word, 0x06: its low nibble
under FourBit, the byte under EightBit. -/
def Obligations.LinesAfterInit : Prop :=
  ∀ s t : State, s.fault = none → s.life ≠ .ready → valid s.config = true → exec .init s = .next t →
    lastSet s.config.pins.rs t.trace = some false
    ∧ lastSet s.config.pins.en t.trace = some false
    ∧ ∀ (k : Nat) (l : LineId), (usedData s.config)[k]? = some l →
        lastSet l t.trace = some ((0x06 : Byte).getLsbD k)

/-- R202, R203: where `Valid` fails, `init` emits one `Fatal(InvalidConfiguration)`, answers it and changes nothing else;
a repeated `init` fails the same way. `Valid` is R202's predicate (D3, D28, log entry 16). -/
def Obligations.InvalidConfigurationIsReported : Prop :=
  (∀ c : Configuration, valid c = true ↔
      c.cfgPresent = true ∧ (1 ≤ c.rows ∧ c.rows ≤ 4) ∧ (1 ≤ c.cols ∧ c.cols ≤ 40) ∧ c.pins.data.length ≤ 8
      ∧ (match c.busWidth with | .eightBit => 8 | .fourBit => 4) ≤ c.pins.data.length
      ∧ (c.pins.rs :: c.pins.en
          :: c.pins.data.take (match c.busWidth with | .eightBit => 8 | .fourBit => 4)).Nodup)
    ∧ ∀ s : State, s.fault = none → s.life ≠ .ready → valid s.config = false →
        exec .init s = .next { s with
          trace := s.trace ++ [.fatal .invalidConfiguration], result := some .errInvalidConfiguration }
        ∧ ∀ t, exec .init s = .next t →
            exec .init t = .next { t with trace := t.trace ++ [.fatal .invalidConfiguration] }

/-- R205 (D10, log entry 28): `init` while `Ready` raises `AlreadyInitialized`, with no event; the masks stay. -/
def Obligations.SecondInitIsAFault : Prop :=
  ∀ s : State, s.fault = none → s.life = .ready →
    exec .init s = .next { s with fault := some .alreadyInitialized, result := some (.faulted .alreadyInitialized) }

/-! ## Faults and refusals -/

/-- R204: every host request other than `init` is guarded: NotReady before `Ready`, with no event, the operation's name
recorded. -/
def Obligations.GuardRaisesNotReady : Prop :=
  ∀ (i : Instr) (op : HostOp), i.hostOp = some op → op ≠ .init → GuardedBy i op

/-- R206: while a fault stands every request, `init` included, is refused: no event, no change of state, the answer apart
(log entry 14); and no instruction clears a fault. -/
def Obligations.StickyFaultRefuses : Prop :=
  (∀ (i : Instr) (op : HostOp) (s : State), i.hostOp = some op → s.fault ≠ none →
      exec i s = .next { s with result := some (.refused op) })
    ∧ ∀ (i : Instr) (s t : State), s.fault ≠ none → exec i s = .next t → t.fault ≠ none

/-- R208: each request reports one outcome, the first of the checks that applies. -/
def Obligations.OutcomePriority : Prop :=
  ∀ (i : Instr) (op : HostOp) (s t : State), i.hostOp = some op → exec i s = .next t →
    t.result = some (
      if s.fault ≠ none then .refused op
      else if op = .init then
        (if s.life = .ready then .faulted .alreadyInitialized
         else if valid s.config = false then .errInvalidConfiguration
         else .ok)
      else if s.life ≠ .ready then .faulted (.notReady op)
      else if op = .print then .okCount (printLength i)
      else .ok)

/-- R207: no host request reaches `BusWidthMisuse`. -/
def Obligations.BusWidthMisuseIsUnreachable : Prop :=
  ∀ (i : Instr) (op : HostOp) (s t : State) (v : Byte), i.hostOp = some op → exec i s = .next t →
    t.fault = some (.busWidthMisuse v) → s.fault = some (.busWidthMisuse v)

/-- R200, R209: a request that ends in a fault or a refusal has emitted no event and written no other field of the block. -/
def Obligations.AbnormalOutcomesArePrecise : Prop :=
  ∀ (i : Instr) (op : HostOp) (s t : State), i.hostOp = some op → exec i s = .next t →
    ((∃ k, t.result = some (.faulted k)) ∨ (∃ o, t.result = some (.refused o))) →
      t = { s with fault := t.fault, result := t.result } ∧ t.fault ≠ none

/-! ## Rules about every instruction -/

/-- R27: no instruction writes the configuration. -/
def Obligations.ConfigurationIsImmutable : Prop :=
  ∀ (i : Instr) (s t : State), exec i s = .next t → t.config = s.config

/-- R34: which operation writes which field: the function mask, the row table and the lifecycle only `init`, the other two
masks only `init` and their own operations; outside `init` at most one mask. -/
def Obligations.WhoWritesWhat : Prop :=
  ∀ (i : Instr) (s t : State), exec i s = .next t →
    (t.life ≠ s.life → i = .init)
    ∧ (t.displayFunction ≠ s.displayFunction → i = .init)
    ∧ (t.rowOffset ≠ s.rowOffset → i = .init)
    ∧ (t.displayControl ≠ s.displayControl →
        i = .init ∨ i ∈ [.display, .noDisplay, .cursor, .noCursor, .blink, .noBlink])
    ∧ (t.displayMode ≠ s.displayMode →
        i = .init ∨ i ∈ [.leftToRight, .rightToLeft, .autoscroll, .noAutoscroll])
    ∧ t.pending = s.pending

/-- R28: the lifecycle goes only from `Uninitialized` to `Ready` and only by an `init` that answers `Ok`; no operation
returns to `Uninitialized`, and `Initializing` is never seen between operations. -/
def Obligations.LifecycleTransitions : Prop :=
  ∀ (i : Instr) (s t : State), s.life ≠ .initializing → exec i s = .next t →
    t.life ≠ .initializing
    ∧ (s.life = .ready → t.life = .ready)
    ∧ (t.life ≠ s.life → s.life = .uninitialized ∧ t.life = .ready ∧ i = .init ∧ t.result = some .ok)

/-- R21, R40: the trace is append-only; every delay an instruction appends is a whole number of milliseconds of at least 1
(R215); `Cfg` events come from `init` only (R41), and a `Fatal` event only alone, from `init` on an invalid
configuration (R44). -/
def Obligations.EventsAppended : Prop :=
  ∀ (i : Instr) (s t : State), exec i s = .next t →
    ∃ es, t.trace = s.trace ++ es
      ∧ (∀ k, Event.dly k ∈ es → 1 ≤ k)
      ∧ (∀ l, Event.cfg l ∈ es → i = .init ∧ t.result = some .ok)
      ∧ (∀ k, Event.fatal k ∈ es → i = .init ∧ es = [.fatal .invalidConfiguration] ∧ valid s.config = false)

/-- R123, R74: no instruction reads a line or anything else of the past output back: run after any other trace it does the
same and appends the same events. -/
def Obligations.NothingIsReadBack : Prop :=
  ∀ (i : Instr) (s : State) (tr : List Event),
    (∀ t, exec i s = .next t →
      ∃ es, t.trace = s.trace ++ es
        ∧ exec i { s with trace := tr } = .next { t with trace := tr ++ es })
    ∧ (∀ f, exec i s = .fault f → exec i { s with trace := tr } = .fault f)
    ∧ (∀ r, exec i s ≠ .refused r)

/-- Part 4 of 95_test_vectors.md, R110: every instruction that finds enable low leaves it low, and a host request that
sends anything ends with enable set to 0. -/
def Obligations.EnableEndsLow : Prop :=
  ∀ (i : Instr) (s t : State), exec i s = .next t →
    (EnableIdle s → EnableIdle t)
    ∧ (i.hostOp ≠ none → t.trace ≠ s.trace → t.result ≠ some .errInvalidConfiguration →
        lastSet s.config.pins.en t.trace = some false)

/-- R252: the minimum duration of every host request at the default timing. -/
def Obligations.MinimumDurations : Prop :=
  ∀ (i : Instr) (op : HostOp) (s t : State),
    i.hostOp = some op → s.config.timing = .default → exec i s = .next t →
    (t.result = some .ok ∨ ∃ n, t.result = some (.okCount n)) →
      ∃ es, t.trace = s.trace ++ es ∧ minDuration es = minimumMs s.config.busWidth op (printLength i)

/-! ## Values -/

/-- R87, R96: the function-set byte `init` sends is one of the six of R87's table, and its bit 4 is the block's own bus
width. -/
def Obligations.FunctionSetBytes : Prop :=
  ∀ c : Configuration, 1 ≤ c.rows →
    functionByte c =
      (match c.busWidth, decide (c.rows = 1), decide (c.font = .font5x10) with
        | .fourBit, true, false => 0x20
        | .fourBit, true, true => 0x24
        | .fourBit, false, _ => 0x28
        | .eightBit, true, false => 0x30
        | .eightBit, true, true => 0x34
        | .eightBit, false, _ => 0x38)
    ∧ ((functionByte c).getLsbD 4 = true ↔ c.busWidth = .eightBit)

/-- R63: the address `setCursor`'s byte names is `(col + rowOffset[r]) mod 128`, and bit 7 is always set. -/
def Obligations.CursorByteAddress : Prop :=
  ∀ col offset : Byte,
    (cursorByte col offset).toNat % 128 = (col.toNat + offset.toNat) % 128
    ∧ (cursorByte col offset).getLsbD 7 = true

/-- R62, R67, R89: the address byte of `createChar` is SETCGRAMADDR with a multiple of 8, the start of slot
`location mod 8`. (Of `createChar` only: `command` passes any byte, R95 (b).) -/
def Obligations.GlyphAddressIsASlot : Prop :=
  ∀ location : Byte, (glyphAddressByte location).toNat = 0x40 + 8 * (location.toNat % 8)

/-- R32, R133: the row table has the stated entries for every legal column count, none above 0x68. -/
def Obligations.RowTableValues : Prop :=
  ∀ cols : Nat, 1 ≤ cols → cols ≤ 40 →
    ((rowTable cols).r0.toNat = 0x00 ∧ (rowTable cols).r1.toNat = 0x40
      ∧ (rowTable cols).r2.toNat = cols ∧ (rowTable cols).r3.toNat = 0x40 + cols)
    ∧ (rowTable cols).r3.toNat ≤ 0x68

/-- R92: the bus words are recovered from their latches: under FourBit the first of each pair is the high nibble and both
have the same rs. -/
def Obligations.LatchesGiveTheWordsBack : Prop :=
  ∀ (b : BusWidth) (ws : List BusWord), latchWords b (wordsLatches b ws) = some ws

/-- R40, R43, R250: an observed run conforms to a trace exactly when it has one call for each event, each the event's own
call with the event's own line, level or report, a delay lasting at least its bound; every trace has a conforming run; a
conforming run takes at least the sum of the trace's lower bounds, and there is no upper bound: any one delay may be longer. -/
def Obligations.ConformingRunsTakeTheirTime : Prop :=
  (∀ (es : List Event) (os : List Observed), conforms es os = true ↔
      es.length = os.length ∧ ∀ (k : Nat) (e : Event) (o : Observed), es[k]? = some e → os[k]? = some o →
        match e with
        | .cfg l => o = .cfg l
        | .set l b => o = .set l b
        | .dly t => ∃ t', o = .waited t' ∧ t ≤ t'
        | .fatal r => o = .fatal r)
    ∧ (∀ es : List Event, ∃ os, conforms es os = true)
    ∧ (∀ (es : List Event) (os : List Observed), conforms es os = true → minDuration es ≤ timeWaited os)
    ∧ ∀ (a b : List Event) (t t' : Nat) (os us : List Observed),
        a.length = os.length → t ≤ t' →
        conforms (a ++ .dly t :: b) (os ++ .waited t :: us) = true →
          conforms (a ++ .dly t :: b) (os ++ .waited t' :: us) = true

/-! ## Reset and the invariant -/

/-- R230: construction, for every configuration supplied: `Uninitialized`, the masks and the table hold no value, no fault,
the trace empty; the reset state is such a construction. -/
def Obligations.ConstructionState : Prop :=
  (∀ c : Configuration,
    (State.construct c).config = c ∧ (State.construct c).life = .uninitialized
    ∧ (State.construct c).displayFunction = none ∧ (State.construct c).displayControl = none
    ∧ (State.construct c).displayMode = none ∧ (State.construct c).rowOffset = none
    ∧ (State.construct c).fault = none ∧ (State.construct c).trace = [])
  ∧ ∃ c, State.reset = State.construct c

/-- The invariant holds right after reset, and after the construction from any configuration. -/
def Obligations.InvariantAtReset : Prop :=
  Inv State.reset ∧ ∀ c : Configuration, Inv (State.construct c)

/-- Every step that answers a next state keeps the invariant, host requests and the block's own transfers alike. -/
def Obligations.StepKeepsInvariant : Prop :=
  ∀ s t : State, Inv s → step s = .next t → Inv t

/-- From a state that meets the invariant, the host's requests never stop the machine: each step takes the first request
to its end, keeps the invariant and takes one request off the queue; so any number of steps runs (R22, R141, R209). -/
def Obligations.HostProgramsNeverStop : Prop :=
  ∀ (k : Nat) (s : State), Inv s → HostProgram s.pending →
    ∃ t, Sys2Proof.core.run k s = .next t ∧ Inv t ∧ t.pending = s.pending.drop k

/-- After `init` on a valid configuration every other host request runs to its own effect: the answer is `Ok` or `Ok(n)`
(R200 "modeled as unconditionally successful" for every request that passes its guard). -/
def Obligations.ReadyRequestsSucceed : Prop :=
  ∀ (i : Instr) (op : HostOp) (s : State), i.hostOp = some op → op ≠ .init → Open s → s.rowOffset ≠ none →
    ∃ t, exec i s = .next t ∧ t.fault = none ∧ t.life = .ready
      ∧ t.result = some (if op = .print then .okCount (printLength i) else .ok)

/-! ## Where the words of a trace begin -/

/-- R92, R91 (the reader's count is log entry 36): to a trace that ends at a word's end, on a valid configuration, `init`
adds, under FourBit, its four handshake nibbles as such and then whole bus words, under EightBit whole bus words only; and
every other host request adds whole bus words, whose latches are the latches of its events: outside the handshake every
latch is half of a word (all of it under EightBit), the high nibble first, both halves with one rs. -/
def Obligations.WordsAreFramed : Prop :=
  (∀ (s t : State) (fs : List Frame),
    s.fault = none → s.life ≠ .ready → valid s.config = true → EnableIdle s → frames s.config s.trace = some fs →
    exec .init s = .next t →
      frames s.config t.trace = some (fs ++
        (match s.config.busWidth with
          | .fourBit => [.handshake ⟨false, 0x3⟩, .handshake ⟨false, 0x3⟩, .handshake ⟨false, 0x3⟩, .handshake ⟨false, 0x2⟩]
          | .eightBit => [.word ⟨false, 0x20#8 ||| functionBits s.config⟩, .word ⟨false, 0x20#8 ||| functionBits s.config⟩,
              .word ⟨false, 0x20#8 ||| functionBits s.config⟩])
        ++ [.word ⟨false, 0x20#8 ||| functionBits s.config⟩, .word ⟨false, 0x0C⟩, .word ⟨false, 0x01⟩, .word ⟨false, 0x06⟩]))
  ∧ ∀ (i : Instr) (op : HostOp) (s t : State) (fs : List Frame),
      i.hostOp = some op → op ≠ .init → valid s.config = true → EnableIdle s → frames s.config s.trace = some fs →
      exec i s = .next t →
        ∃ es ws, t.trace = s.trace ++ es
          ∧ latchesFrom s.config s.trace es = wordsLatches s.config.busWidth ws
          ∧ frames s.config t.trace = some (fs ++ ws.map .word)
end

