-- ==== Sys2Proof/Laws/Decode.lean ====
section
/-! SUPPORT. The reader of a line, part by part: what it makes of a word, a mark, a space, a quoted string, a number and a
bracketed list, and which name each spelling is. A proof about a written line cites these and unfolds no step of the
reader. -/

namespace Sys2Proof.Laws

open Sys2Proof

/-! ## Parts of a line -/

theorem lex_inside_word (w rest : List Byte) (rev : List Byte) (hw : w.all isWordChar = true) :
    lexFrom (.word rev) (w ++ rest) = lexFrom (.word (w.reverse ++ rev)) rest := by
  induction w generalizing rev with
  | nil => rfl
  | cons c w ih =>
    simp only [List.all_cons, Bool.and_eq_true] at hw
    simp only [List.cons_append, lexFrom, lexStep, hw.1, if_true, List.nil_append]
    rw [ih _ hw.2]
    cases h : lexFrom (.word (w.reverse ++ c :: rev)) rest <;> simp [h]

theorem lex_word_end {c : Byte} {rest : List Byte} {toks : List Token} (rev : List Byte)
    (hc : isWordChar c = false) (h : lexFrom .gap (c :: rest) = .ok toks) :
    lexFrom (.word rev) (c :: rest) = .ok (.word rev.reverse :: toks) := by
  simp only [lexFrom, lexStep, hc] at h ⊢
  cases hg : lexGap c with
  | error e => simp [hg] at h
  | ok p =>
    simp only [hg] at h ⊢
    cases hr : lexFrom p.2 rest with
    | error e => simp [hr] at h
    | ok us =>
      simp only [hr, Except.ok.injEq] at h
      simp [hr, h]

/-- A word, read where a part may begin, up to a character that is of no word. -/
theorem lex_word {w rest : List Byte} {c : Byte} {toks : List Token} (hne : w ≠ []) (hw : w.all isWordChar = true)
    (hc : isWordChar c = false) (h : lexFrom .gap (c :: rest) = .ok toks) :
    lexFrom .gap (w ++ c :: rest) = .ok (.word w :: toks) := by
  cases w with
  | nil => exact absurd rfl hne
  | cons d w =>
    simp only [List.all_cons, Bool.and_eq_true] at hw
    have := lex_word_end (w.reverse ++ [d]) hc h
    rw [← lex_inside_word w (c :: rest) [d] hw.2] at this
    simp only [List.cons_append, lexFrom, lexStep, lexGap, hw.1, if_true]
    simp only [this, List.nil_append, Except.ok.injEq]
    simp

theorem not_word_of_mark {c : Byte} {t : Token} (h : markOf c = some t) :
    isWordChar c = false ∧ c ≠ quoteMark ∧ c ≠ 0x20#8 := by
  unfold markOf at h
  repeat' split at h
  all_goals first | (subst c; decide) | cases h

/-- One of the five marks. -/
theorem lex_mark {c : Byte} {t : Token} {rest : List Byte} {toks : List Token} (hc : markOf c = some t)
    (h : lexFrom .gap rest = .ok toks) : lexFrom .gap (c :: rest) = .ok (t :: toks) := by
  obtain ⟨h1, h2, h3⟩ := not_word_of_mark hc
  simp [lexFrom, lexStep, lexGap, h1, h2, h3, hc, h]

theorem lex_space {rest : List Byte} {toks : List Token} (h : lexFrom .gap rest = .ok toks) :
    lexFrom .gap (0x20#8 :: rest) = .ok toks := by
  have h1 : isWordChar 0x20#8 = false := by decide
  have h2 : (0x20#8 : Byte) ≠ quoteMark := by decide
  simp [lexFrom, lexStep, lexGap, h1, h2, h]

theorem lex_inside_text {t rest : List Byte} {toks : List Token} (rev : List Byte) (ht : t.all isTextChar = true)
    (h : lexFrom .gap rest = .ok toks) :
    lexFrom (.text rev) (t ++ quoteMark :: rest) = .ok (.text (rev.reverse ++ t) :: toks) := by
  induction t generalizing rev with
  | nil => simp [lexFrom, lexStep, h]
  | cons c t ih =>
    simp only [List.all_cons, Bool.and_eq_true] at ht
    have hq : c ≠ quoteMark := by
      intro hq
      subst hq
      exact absurd ht.1 (by decide)
    simp [lexFrom, lexStep, hq, ht.1, ih _ ht.2]

/-- A quoted string. -/
theorem lex_text {t rest : List Byte} {toks : List Token} (ht : t.all isTextChar = true)
    (h : lexFrom .gap rest = .ok toks) :
    lexFrom .gap (quoteMark :: (t ++ quoteMark :: rest)) = .ok (.text t :: toks) := by
  have h1 : isWordChar quoteMark = false := by decide
  have := lex_inside_text [] ht h
  simp only [List.reverse_nil, List.nil_append] at this
  simp [lexFrom, lexStep, lexGap, h1, this]

/-! ## Numbers -/

/-- A number as the encoder writes it reads back. -/
theorem byteOf_renderByte : ∀ b : Byte, byteOf (renderByte b) = .ok b := by decide +kernel

theorem renderByte_word : ∀ b : Byte, (renderByte b).all isWordChar = true := by decide +kernel

theorem renderByte_ne_nil (b : Byte) : renderByte b ≠ [] := by simp [renderByte]

/-- A number before a character that is of no word. -/
theorem lex_number (b : Byte) {c : Byte} {rest : List Byte} {toks : List Token} (hc : isWordChar c = false)
    (h : lexFrom .gap (c :: rest) = .ok toks) :
    lexFrom .gap (renderByte b ++ c :: rest) = .ok (.word (renderByte b) :: toks) :=
  lex_word (renderByte_ne_nil b) (renderByte_word b) hc h

theorem renderBool_word : ∀ b : Bool, (renderBool b).all isWordChar = true := by decide

theorem boolOf_renderBool : ∀ b : Bool, boolOf (renderBool b) = .ok b := by decide

/-! ## Bracketed lists -/

/-- The parts of a bracketed list after its first bracket, up to the end of the line. -/
def itemTokens : List Byte → List Token
  | [] => [.rbracket, .rparen]
  | [b] => [.word (renderByte b), .rbracket, .rparen]
  | b :: c :: bs => .word (renderByte b) :: .comma :: itemTokens (c :: bs)

theorem lex_list_end : lexFrom .gap [0x5D#8, 0x29#8] = .ok [.rbracket, .rparen] := by decide

theorem lex_items (bs : List Byte) :
    lexFrom .gap (joinArgs (bs.map renderByte) ++ [0x5D#8, 0x29#8]) = .ok (itemTokens bs) := by
  match bs with
  | [] => exact lex_list_end
  | [b] => exact lex_number b (by decide) lex_list_end
  | b :: c :: bs =>
    have := lex_items (c :: bs)
    simp only [List.map_cons] at this
    simp only [List.map_cons, joinArgs, itemTokens, List.append_assoc, List.cons_append, List.nil_append]
    exact lex_number b (by decide) (lex_mark (by decide) (lex_space this))

theorem byteItems_itemTokens (bs : List Byte) : byteItems (itemTokens bs) = .ok bs := by
  match bs with
  | [] => rfl
  | [b] => simp [itemTokens, byteItems, byteOf_renderByte]
  | b :: c :: bs =>
    have := byteItems_itemTokens (c :: bs)
    simp [itemTokens, byteItems, byteOf_renderByte, this]

/-! ## Names -/

theorem spelling_word : ∀ n ∈ callNames, n.spelling.all isWordChar = true ∧ n.spelling ≠ [] := by decide +kernel

theorem mem_callNames (n : CallName) : n ∈ callNames := by
  rcases n with op | _ | _ | _ | _
  · cases op <;> decide
  all_goals decide

/-- Every name reads as itself. -/
theorem lookupName_spelling (n : CallName) : lookupName n.spelling = some n := by
  rcases n with op | _ | _ | _ | _
  · cases op <;> decide
  all_goals decide

/-- A line whose arguments read as `toks` is the call of its name on them. -/
theorem decodeLine_call (n : CallName) {rest : List Byte} {toks : List Token} (h : lexFrom .gap rest = .ok toks) :
    decodeLine (n.spelling ++ 0x28#8 :: rest) = operands n toks := by
  obtain ⟨hw, hne⟩ := spelling_word n (mem_callNames n)
  have := lex_word hne hw (by decide) (lex_mark (c := 0x28#8) (t := .lparen) (by decide) h)
  simp [decodeLine, this, parseCall, lookupName_spelling]

end Sys2Proof.Laws
end

