-- ==== Sys2Proof/Laws/State.lean ====
section
/-! SUPPORT. One lemma per field per update of the shared operations on State, true by rfl. -/

namespace Sys2Proof.Machine

@[simp] theorem emit_config (es : List Event) (s : State) : (emit es s).config = s.config := rfl
@[simp] theorem emit_life (es : List Event) (s : State) : (emit es s).life = s.life := rfl
@[simp] theorem emit_displayFunction (es : List Event) (s : State) : (emit es s).displayFunction = s.displayFunction := rfl
@[simp] theorem emit_displayControl (es : List Event) (s : State) : (emit es s).displayControl = s.displayControl := rfl
@[simp] theorem emit_displayMode (es : List Event) (s : State) : (emit es s).displayMode = s.displayMode := rfl
@[simp] theorem emit_rowOffset (es : List Event) (s : State) : (emit es s).rowOffset = s.rowOffset := rfl
@[simp] theorem emit_fault (es : List Event) (s : State) : (emit es s).fault = s.fault := rfl
@[simp] theorem emit_trace (es : List Event) (s : State) : (emit es s).trace = s.trace ++ es := rfl
@[simp] theorem emit_pending (es : List Event) (s : State) : (emit es s).pending = s.pending := rfl
@[simp] theorem emit_result (es : List Event) (s : State) : (emit es s).result = s.result := rfl

@[simp] theorem answer_config (r : Result) (s : State) : (answer r s).config = s.config := rfl
@[simp] theorem answer_life (r : Result) (s : State) : (answer r s).life = s.life := rfl
@[simp] theorem answer_displayFunction (r : Result) (s : State) : (answer r s).displayFunction = s.displayFunction := rfl
@[simp] theorem answer_displayControl (r : Result) (s : State) : (answer r s).displayControl = s.displayControl := rfl
@[simp] theorem answer_displayMode (r : Result) (s : State) : (answer r s).displayMode = s.displayMode := rfl
@[simp] theorem answer_rowOffset (r : Result) (s : State) : (answer r s).rowOffset = s.rowOffset := rfl
@[simp] theorem answer_fault (r : Result) (s : State) : (answer r s).fault = s.fault := rfl
@[simp] theorem answer_trace (r : Result) (s : State) : (answer r s).trace = s.trace := rfl
@[simp] theorem answer_pending (r : Result) (s : State) : (answer r s).pending = s.pending := rfl
@[simp] theorem answer_result (r : Result) (s : State) : (answer r s).result = some r := rfl

@[simp] theorem raise_config (k : FaultKind) (s : State) : (raise k s).config = s.config := rfl
@[simp] theorem raise_life (k : FaultKind) (s : State) : (raise k s).life = s.life := rfl
@[simp] theorem raise_displayFunction (k : FaultKind) (s : State) : (raise k s).displayFunction = s.displayFunction := rfl
@[simp] theorem raise_displayControl (k : FaultKind) (s : State) : (raise k s).displayControl = s.displayControl := rfl
@[simp] theorem raise_displayMode (k : FaultKind) (s : State) : (raise k s).displayMode = s.displayMode := rfl
@[simp] theorem raise_rowOffset (k : FaultKind) (s : State) : (raise k s).rowOffset = s.rowOffset := rfl
@[simp] theorem raise_fault (k : FaultKind) (s : State) : (raise k s).fault = some k := rfl
@[simp] theorem raise_trace (k : FaultKind) (s : State) : (raise k s).trace = s.trace := rfl
@[simp] theorem raise_pending (k : FaultKind) (s : State) : (raise k s).pending = s.pending := rfl
@[simp] theorem raise_result (k : FaultKind) (s : State) : (raise k s).result = some (.faulted k) := rfl

@[simp] theorem refuse_config (op : HostOp) (s : State) : (refuse op s).config = s.config := rfl
@[simp] theorem refuse_life (op : HostOp) (s : State) : (refuse op s).life = s.life := rfl
@[simp] theorem refuse_displayFunction (op : HostOp) (s : State) : (refuse op s).displayFunction = s.displayFunction := rfl
@[simp] theorem refuse_displayControl (op : HostOp) (s : State) : (refuse op s).displayControl = s.displayControl := rfl
@[simp] theorem refuse_displayMode (op : HostOp) (s : State) : (refuse op s).displayMode = s.displayMode := rfl
@[simp] theorem refuse_rowOffset (op : HostOp) (s : State) : (refuse op s).rowOffset = s.rowOffset := rfl
@[simp] theorem refuse_fault (op : HostOp) (s : State) : (refuse op s).fault = s.fault := rfl
@[simp] theorem refuse_trace (op : HostOp) (s : State) : (refuse op s).trace = s.trace := rfl
@[simp] theorem refuse_pending (op : HostOp) (s : State) : (refuse op s).pending = s.pending := rfl
@[simp] theorem refuse_result (op : HostOp) (s : State) : (refuse op s).result = some (.refused op) := rfl

@[simp] theorem initTables_config (s : State) : (initTables s).config = s.config := rfl
@[simp] theorem initTables_life (s : State) : (initTables s).life = s.life := rfl
@[simp] theorem initTables_displayFunction (s : State) : (initTables s).displayFunction = some (functionMask s.config) := rfl
@[simp] theorem initTables_displayControl (s : State) : (initTables s).displayControl = s.displayControl := rfl
@[simp] theorem initTables_displayMode (s : State) : (initTables s).displayMode = s.displayMode := rfl
@[simp] theorem initTables_rowOffset (s : State) : (initTables s).rowOffset = some (rowTable s.config.cols) := rfl
@[simp] theorem initTables_fault (s : State) : (initTables s).fault = s.fault := rfl
@[simp] theorem initTables_trace (s : State) : (initTables s).trace = s.trace := rfl
@[simp] theorem initTables_pending (s : State) : (initTables s).pending = s.pending := rfl
@[simp] theorem initTables_result (s : State) : (initTables s).result = s.result := rfl

@[simp] theorem emit_nil (s : State) : emit [] s = s := by simp [emit]

@[simp] theorem emit_emit (a b : List Event) (s : State) : emit b (emit a s) = emit (a ++ b) s := by
  simp [emit]

@[simp] theorem construct_config (c : Configuration) : (State.construct c).config = c := rfl
@[simp] theorem construct_life (c : Configuration) : (State.construct c).life = .uninitialized := rfl
@[simp] theorem construct_trace (c : Configuration) : (State.construct c).trace = [] := rfl
@[simp] theorem construct_fault (c : Configuration) : (State.construct c).fault = none := rfl
@[simp] theorem construct_pending (c : Configuration) : (State.construct c).pending = [] := rfl

@[simp] theorem andThen_next (s : State) (k : State → Host.Outcome State Fault Refusal) :
    andThen (.next s) k = k s := rfl
@[simp] theorem andThen_fault (f : Fault) (k : State → Host.Outcome State Fault Refusal) :
    andThen (.fault f) k = .fault f := rfl
@[simp] theorem andThen_refused (r : Refusal) (k : State → Host.Outcome State Fault Refusal) :
    andThen (.refused r) k = .refused r := rfl

/-- A sequence that answers a next state went through one. -/
theorem andThen_eq_next {o : Host.Outcome State Fault Refusal} {k : State → Host.Outcome State Fault Refusal}
    {t : State} (h : andThen o k = .next t) : ∃ s, o = .next s ∧ k s = .next t := by
  cases o with
  | next s => exact ⟨s, rfl, h⟩
  | fault f => cases h
  | refused r => cases h

/-- Everything the guard can do (R204, R206, R208). -/
theorem guarded_cases (op : HostOp) (body : State → Host.Outcome State Fault Refusal) (s : State) :
    (s.fault ≠ none ∧ guarded op body s = .next (refuse op s)) ∨
    (s.fault = none ∧ s.life ≠ .ready ∧ guarded op body s = .next (raise (.notReady op) s)) ∨
    (s.fault = none ∧ s.life = .ready ∧ guarded op body s = body s) := by
  by_cases hf : s.fault = none
  · by_cases hl : s.life = .ready
    · exact .inr (.inr ⟨hf, hl, by simp [guarded, hf, hl]⟩)
    · exact .inr (.inl ⟨hf, hl, by simp [guarded, hf, hl]⟩)
  · exact .inl ⟨hf, by simp [guarded, hf]⟩

theorem guarded_open (op : HostOp) (body : State → Host.Outcome State Fault Refusal) {s : State}
    (hf : s.fault = none) (hl : s.life = .ready) : guarded op body s = body s := by
  simp [guarded, hf, hl]

end Sys2Proof.Machine
end

