-- ==== Sys2Proof/Laws/Trace.lean ====
section
/-! SUPPORT. Reading a trace in parts: levels, latches, counts and time of `a ++ b`. -/

namespace Sys2Proof.Machine

/-- The level an event sets on a line, if it does. -/
def drives (l : LineId) (e : Event) : Option Bool :=
  match e with
  | .set l' b => if l' = l then some b else none
  | _ => none

@[simp] theorem drives_set_same (l : LineId) (b : Bool) : drives l (.set l b) = some b := by simp [drives]
@[simp] theorem drives_dly (l : LineId) (t : Nat) : drives l (.dly t) = none := rfl
@[simp] theorem drives_cfg (l l' : LineId) : drives l (.cfg l') = none := rfl
@[simp] theorem drives_fatal (l : LineId) (k : ErrorKind) : drives l (.fatal k) = none := rfl
theorem drives_set_other {l l' : LineId} (h : l' ≠ l) (b : Bool) : drives l (.set l' b) = none := by simp [drives, h]

@[simp] theorem lastSet_nil (l : LineId) : lastSet l [] = none := rfl

theorem lastSet_cons (l : LineId) (e : Event) (es : List Event) :
    lastSet l (e :: es) = (lastSet l es).or (drives l e) := by
  cases h : lastSet l es with
  | some b => simp [lastSet, h]
  | none => cases e <;> simp [lastSet, h, drives]

/-- The last `Set` of the later part counts, else that of the earlier part (R42). -/
theorem lastSet_append (l : LineId) (a b : List Event) :
    lastSet l (a ++ b) = (lastSet l b).or (lastSet l a) := by
  induction a with
  | nil => simp
  | cons e a ih => simp [lastSet_cons, ih, Option.or_assoc]

theorem lastSet_eq_none {l : LineId} {es : List Event} (h : ∀ e ∈ es, drives l e = none) : lastSet l es = none := by
  induction es with
  | nil => rfl
  | cons e es ih =>
    simp [lastSet_cons, ih fun e he => h e (List.mem_cons_of_mem _ he), h e (List.mem_cons_self ..)]

/-- Reading latches in two parts. -/
theorem latchesFrom_append (c : Configuration) (before a b : List Event) :
    latchesFrom c before (a ++ b) = latchesFrom c before a ++ latchesFrom c (before ++ a) b := by
  induction a generalizing before with
  | nil => simp [latchesFrom]
  | cons e a ih => simp [latchesFrom, ih]

/-- Events none of which drives enable make no latch. -/
theorem latchesFrom_eq_nil (c : Configuration) (before : List Event) {es : List Event}
    (h : ∀ e ∈ es, drives c.pins.en e = none) : latchesFrom c before es = [] := by
  induction es generalizing before with
  | nil => rfl
  | cons e es ih =>
    have he := h e (List.mem_cons_self ..)
    have hf : isFalling c before e = false := by
      cases e <;> simp [isFalling]
      rintro rfl rfl
      simp at he
    simp [latchesFrom, hf, ih (before ++ [e]) fun e' he' => h e' (List.mem_cons_of_mem _ he')]

@[simp] theorem minDuration_nil : minDuration [] = 0 := rfl
@[simp] theorem minDuration_cfg (l : LineId) (es : List Event) :
    minDuration (.cfg l :: es) = minDuration es := rfl
@[simp] theorem minDuration_set (l : LineId) (b : Bool) (es : List Event) :
    minDuration (.set l b :: es) = minDuration es := rfl
@[simp] theorem minDuration_dly (t : Nat) (es : List Event) :
    minDuration (.dly t :: es) = t + minDuration es := rfl
@[simp] theorem minDuration_fatal (k : ErrorKind) (es : List Event) :
    minDuration (.fatal k :: es) = minDuration es := rfl

theorem minDuration_cons (e : Event) (es : List Event) : minDuration (e :: es) = minDuration [e] + minDuration es := by
  cases e <;> simp [minDuration]

@[simp] theorem minDuration_append (a b : List Event) : minDuration (a ++ b) = minDuration a + minDuration b := by
  induction a with
  | nil => simp [minDuration]
  | cons e a ih =>
    rw [List.cons_append, minDuration_cons, ih, minDuration_cons e a, Nat.add_assoc]

@[simp] theorem countCfg_nil : countCfg [] = 0 := rfl
@[simp] theorem countCfg_cfg (l : LineId) (es : List Event) :
    countCfg (.cfg l :: es) = countCfg es + 1 := by simp [countCfg]
@[simp] theorem countCfg_set (l : LineId) (b : Bool) (es : List Event) :
    countCfg (.set l b :: es) = countCfg es := by simp [countCfg]
@[simp] theorem countCfg_dly (t : Nat) (es : List Event) :
    countCfg (.dly t :: es) = countCfg es := by simp [countCfg]
@[simp] theorem countCfg_fatal (k : ErrorKind) (es : List Event) :
    countCfg (.fatal k :: es) = countCfg es := by simp [countCfg]
@[simp] theorem countSet_nil : countSet [] = 0 := rfl
@[simp] theorem countSet_cfg (l : LineId) (es : List Event) :
    countSet (.cfg l :: es) = countSet es := by simp [countSet]
@[simp] theorem countSet_set (l : LineId) (b : Bool) (es : List Event) :
    countSet (.set l b :: es) = countSet es + 1 := by simp [countSet]
@[simp] theorem countSet_dly (t : Nat) (es : List Event) :
    countSet (.dly t :: es) = countSet es := by simp [countSet]
@[simp] theorem countSet_fatal (k : ErrorKind) (es : List Event) :
    countSet (.fatal k :: es) = countSet es := by simp [countSet]
@[simp] theorem countDly_nil : countDly [] = 0 := rfl
@[simp] theorem countDly_cfg (l : LineId) (es : List Event) :
    countDly (.cfg l :: es) = countDly es := by simp [countDly]
@[simp] theorem countDly_set (l : LineId) (b : Bool) (es : List Event) :
    countDly (.set l b :: es) = countDly es := by simp [countDly]
@[simp] theorem countDly_dly (t : Nat) (es : List Event) :
    countDly (.dly t :: es) = countDly es + 1 := by simp [countDly]
@[simp] theorem countDly_fatal (k : ErrorKind) (es : List Event) :
    countDly (.fatal k :: es) = countDly es := by simp [countDly]

@[simp] theorem countCfg_append (a b : List Event) : countCfg (a ++ b) = countCfg a + countCfg b := by
  simp [countCfg]
@[simp] theorem countSet_append (a b : List Event) : countSet (a ++ b) = countSet a + countSet b := by
  simp [countSet]
@[simp] theorem countDly_append (a b : List Event) : countDly (a ++ b) = countDly a + countDly b := by
  simp [countDly]

end Sys2Proof.Machine
end

