-- ==== Sys2Proof/Laws/Transfer.lean ====
section
/-! SUPPORT. What one `send` does, said once: its events, when it stops, the latch its lines carry, the level of enable it
leaves. Everything about an operation follows from these. -/

namespace Sys2Proof.Machine

open Sys2Proof.Safety

/-- The events of one latch of `w` lines. -/
def latchEvents (c : Configuration) (w : Nat) (v : Byte) : List Event :=
  driveFrom v 0 (c.pins.data.take w) ++ pulseEvents c

/-- The events of one `send` (R120). -/
def sendEvents (c : Configuration) (v : Byte) (isData : Bool) : List Event :=
  match c.busWidth with
  | .eightBit => .set c.pins.rs isData :: latchEvents c 8 v
  | .fourBit => .set c.pins.rs isData :: (latchEvents c 4 (v >>> 4) ++ latchEvents c 4 v)

/-- The events of `send` for each value in order. -/
def sendAllEvents (c : Configuration) (isData : Bool) (vs : List Byte) : List Event :=
  vs.flatMap fun v => sendEvents c v isData

theorem pulseEnable_spec (s : State) : pulseEnable s = .next (emit (pulseEvents s.config) s) := rfl

/-- Everything a latch does: it stops for want of a line, or emits its events. -/
theorem latch_spec (w : Nat) (v : Byte) (s : State) :
    latch w v s = if s.config.pins.data.length < w then .fault (.missingDataLine w s.config.pins.data.length)
      else .next (emit (latchEvents s.config w v) s) := by
  simp [latch, pulseEnable_spec, latchEvents]

/-- Everything `send` does (R120): `BusWidthMisuse` is not among it (R207). -/
theorem send_spec (v : Byte) (d : Bool) (s : State) :
    send v d s =
      if s.config.pins.data.length < busLines s.config.busWidth then
        .fault (.missingDataLine (busLines s.config.busWidth) s.config.pins.data.length)
      else .next (emit (sendEvents s.config v d) s) := by
  cases hb : s.config.busWidth with
  | eightBit => simp [send, sendEvents, hb, writeByte, latch_spec, busLines]
  | fourBit =>
    by_cases hl : s.config.pins.data.length < 4 <;>
      simp [send, sendEvents, hb, writeNibble, latch_spec, busLines, hl]

theorem send_next {s : State} (h : busLines s.config.busWidth ≤ s.config.pins.data.length) (v : Byte) (d : Bool) :
    send v d s = .next (emit (sendEvents s.config v d) s) := by
  simp [send_spec, Nat.not_lt.mpr h]

theorem sendAll_next {s : State} (h : busLines s.config.busWidth ≤ s.config.pins.data.length) (d : Bool)
    (vs : List Byte) : sendAll d vs s = .next (emit (sendAllEvents s.config d vs) s) := by
  induction vs generalizing s with
  | nil => simp [sendAll, sendAllEvents]
  | cons v vs ih => simp [sendAll, send_next h, ih (s := emit _ s) h, sendAllEvents]

/-- Everything `sendAll` can answer. -/
theorem sendAll_eq_next {s t : State} {d : Bool} {vs : List Byte} (h : sendAll d vs s = .next t) :
    t = emit (sendAllEvents s.config d vs) s := by
  induction vs generalizing s with
  | nil => cases h; simp [sendAllEvents]
  | cons v vs ih =>
    obtain ⟨u, hu, ht⟩ := andThen_eq_next h
    rw [send_spec] at hu
    split at hu
    · cases hu
    · cases hu; rw [ih ht]; simp [sendAllEvents]

/-- Everything `send` can answer. -/
theorem send_eq_next {s t : State} {v : Byte} {d : Bool} (h : send v d s = .next t) :
    t = emit (sendEvents s.config v d) s := by
  rw [send_spec] at h
  split at h
  · cases h
  · cases h; rfl

/-! ## Levels after a latch -/

theorem drives_driveFrom {l : LineId} {ls : List LineId} (h : l ∉ ls) (v : Byte) (i : Nat) :
    ∀ e ∈ driveFrom v i ls, drives l e = none := by
  induction ls generalizing i with
  | nil => simp [driveFrom]
  | cons a ls ih =>
    simp only [List.mem_cons, not_or] at h
    intro e he
    simp only [driveFrom, List.mem_cons] at he
    rcases he with rfl | he
    · exact drives_set_other (Ne.symm h.1) _
    · exact ih h.2 (i + 1) e he

theorem lastSet_driveFrom_other {l : LineId} {ls : List LineId} (h : l ∉ ls) (v : Byte) (i : Nat) :
    lastSet l (driveFrom v i ls) = none := lastSet_eq_none (drives_driveFrom h v i)

/-- Line k of distinct lines holds bit `i + k` (R65). -/
theorem sampleFrom_driveFrom (v : Byte) (i : Nat) (ls : List LineId) (h : ls.Nodup) (a : List Event) :
    sampleFrom (a ++ driveFrom v i ls) i ls =
      (List.range' i ls.length).foldr (fun k n => (if v.getLsbD k then 2 ^ k else 0) + n) 0 := by
  induction ls generalizing i a with
  | nil => rfl
  | cons l ls ih =>
    obtain ⟨hl, hn⟩ := List.nodup_cons.mp h
    have hlev : level l (a ++ driveFrom v i (l :: ls)) = v.getLsbD i := by
      simp [level, lastSet_append, driveFrom, lastSet_cons, lastSet_driveFrom_other hl]
    have := ih (i + 1) hn (a ++ [.set l (v.getLsbD i)])
    simp only [List.append_assoc, List.singleton_append] at this
    rw [sampleFrom, hlev, driveFrom, this, List.length_cons, List.range'_succ, List.foldr_cons]

/-- The value eight lines carry is the byte. -/
theorem ofNat_bits_eight (v : Byte) :
    BitVec.ofNat 8 ((List.range' 0 8).foldr (fun k n => (if v.getLsbD k then 2 ^ k else 0) + n) 0) = v := by
  revert v; decide

/-- The value four lines carry is the low nibble. -/
theorem ofNat_bits_four (v : Byte) :
    BitVec.ofNat 8 ((List.range' 0 4).foldr (fun k n => (if v.getLsbD k then 2 ^ k else 0) + n) 0) = v &&& 0x0F#8 := by
  revert v; decide

theorem lastSet_pulse_en (c : Configuration) : lastSet c.pins.en (pulseEvents c) = some false := by
  simp [pulseEvents, lastSet_cons]

theorem drives_pulse_other {c : Configuration} {l : LineId} (h : l ≠ c.pins.en) :
    ∀ e ∈ pulseEvents c, drives l e = none := by
  simp [pulseEvents, drives_set_other (Ne.symm h)]

/-- A latch leaves enable low. -/
theorem lastSet_latch_en (c : Configuration) (w : Nat) (v : Byte) (before : List Event) :
    lastSet c.pins.en (before ++ latchEvents c w v) = some false := by
  simp [latchEvents, lastSet_append, lastSet_pulse_en]

/-- A latch leaves the lines it does not drive as they were. -/
theorem lastSet_latch_other {c : Configuration} {l : LineId} {w : Nat} (he : l ≠ c.pins.en)
    (hd : l ∉ c.pins.data.take w) (v : Byte) : lastSet l (latchEvents c w v) = none := by
  simp [latchEvents, lastSet_append, lastSet_driveFrom_other hd, lastSet_eq_none (drives_pulse_other he)]

/-- The latches of a pulse: one, of the levels before it (R93, R110). -/
theorem latchesFrom_pulse (c : Configuration) (before : List Event) (h : lastSet c.pins.en before ≠ some true)
    (hs : ∀ l ∈ c.pins.rs :: usedData c, l ≠ c.pins.en) :
    latchesFrom c before (pulseEvents c) = [sample c before] := by
  have hlev : ∀ (es : List Event) (l : LineId), l ≠ c.pins.en → (∀ e ∈ es, drives l e = none) →
      level l (before ++ es) = level l before := by
    intro es l _ hes
    simp [level, lastSet_append, lastSet_eq_none hes]
  have hsample : ∀ es : List Event, (∀ e ∈ es, ∀ l, l ≠ c.pins.en → drives l e = none) →
      sample c (before ++ es) = sample c before := by
    intro es hes
    have hdata : ∀ (ls : List LineId) (i : Nat), (∀ l ∈ ls, l ≠ c.pins.en) →
        sampleFrom (before ++ es) i ls = sampleFrom before i ls := by
      intro ls
      induction ls with
      | nil => intro i _; rfl
      | cons l ls ih =>
        intro i hl
        simp only [sampleFrom]
        rw [hlev es l (hl l (List.mem_cons_self ..)) fun e he => hes e he l (hl l (List.mem_cons_self ..)),
          ih (i + 1) fun l' hl' => hl l' (List.mem_cons_of_mem _ hl')]
    simp only [sample]
    rw [hlev es c.pins.rs (hs _ (List.mem_cons_self ..)) fun e he => hes e he _ (hs _ (List.mem_cons_self ..)),
      hdata _ 0 fun l hl => hs l (List.mem_cons_of_mem _ hl)]
  have h3 := hsample [.set c.pins.en false, .dly (tPulse c), .set c.pins.en true, .dly (tPulse c)] (by
    intro e he l hl
    simp only [List.mem_cons, List.not_mem_nil, or_false] at he
    rcases he with rfl | rfl | rfl | rfl <;> simp [drives, Ne.symm hl])
  simp [pulseEvents, latchesFrom, isFalling, lastSet_append, lastSet_cons, h, h3]

theorem linesUsable_facts {c : Configuration} (h : LinesUsable c) :
    c.pins.rs ≠ c.pins.en ∧ c.pins.rs ∉ usedData c ∧ c.pins.en ∉ usedData c ∧ (usedData c).Nodup
      ∧ (usedData c).length = busLines c.busWidth := by
  obtain ⟨hl, hn⟩ := h
  simp only [List.nodup_cons, List.mem_cons, not_or] at hn
  exact ⟨hn.1.1, hn.1.2, hn.2.1, hn.2.2, by simp [usedData, hl]⟩

/-- The latch of one drive and pulse of the used lines: register-select as it was, the low bits of the value. -/
theorem latchesFrom_latch {c : Configuration} (hu : LinesUsable c) (v : Byte) (before : List Event)
    (h : lastSet c.pins.en before ≠ some true) :
    latchesFrom c before (latchEvents c (busLines c.busWidth) v) =
      [⟨level c.pins.rs before,
        match c.busWidth with
        | .eightBit => v
        | .fourBit => v &&& 0x0F#8⟩] := by
  obtain ⟨hre, hrd, hed, hn, hlen⟩ := linesUsable_facts hu
  have hs : ∀ l ∈ c.pins.rs :: usedData c, l ≠ c.pins.en := by
    intro l hl
    rcases List.mem_cons.mp hl with rfl | hl
    · exact hre
    · rintro rfl; exact hed hl
  have hdrive := lastSet_driveFrom_other hed v 0
  rw [latchEvents, latchesFrom_append]
  change latchesFrom c before (driveFrom v 0 (usedData c)) ++
    latchesFrom c (before ++ driveFrom v 0 (usedData c)) (pulseEvents c) = _
  rw [latchesFrom_eq_nil c before (drives_driveFrom hed v 0), List.nil_append,
    latchesFrom_pulse c _ (by simp [lastSet_append, hdrive, h]) hs, sample, sampleFrom_driveFrom v 0 _ hn, hlen,
    Nat.sub_self, missingFrom, Nat.add_zero]
  have hrs : level c.pins.rs (before ++ driveFrom v 0 (usedData c)) = level c.pins.rs before := by
    simp [level, lastSet_append, lastSet_driveFrom_other hrd]
  rw [hrs]
  cases hb : c.busWidth
  · simp only [busLines]; rw [ofNat_bits_four]
  · simp only [busLines]; rw [ofNat_bits_eight]

/-- `send` leaves enable low (R110). -/
theorem lastSet_send_en (c : Configuration) (v : Byte) (d : Bool) (before : List Event) :
    lastSet c.pins.en (before ++ sendEvents c v d) = some false := by
  cases hb : c.busWidth <;>
    simp [sendEvents, hb, latchEvents, lastSet_append, lastSet_cons, lastSet_pulse_en]

/-- What the lines carry in one `send`: the latches of its bus word (R92, R120). -/
theorem latchesFrom_send {c : Configuration} (hu : LinesUsable c) (v : Byte) (d : Bool) (before : List Event)
    (h : lastSet c.pins.en before ≠ some true) :
    latchesFrom c before (sendEvents c v d) = wordLatches c.busWidth ⟨d, v⟩ := by
  obtain ⟨hre, hrd, hed, hn, hlen⟩ := linesUsable_facts hu
  have h1 : lastSet c.pins.en (before ++ [.set c.pins.rs d]) ≠ some true := by
    simp [lastSet_append, lastSet_cons, drives_set_other hre, h]
  have hcons : ∀ es, latchesFrom c before (.set c.pins.rs d :: es) =
      latchesFrom c (before ++ [.set c.pins.rs d]) es := by
    intro es; simp [latchesFrom, isFalling, hre]
  have hlat := fun v b hb => latchesFrom_latch hu v b hb
  have hlev : level c.pins.rs (before ++ [.set c.pins.rs d]) = d := by
    simp [level, lastSet_append, lastSet_cons]
  cases hb : c.busWidth
  · rw [hb] at hlat
    simp only [busLines] at hlat
    have hrd' : c.pins.rs ∉ c.pins.data.take 4 := by simpa [usedData, hb, busLines] using hrd
    have hlev2 : level c.pins.rs (before ++ [.set c.pins.rs d] ++ latchEvents c 4 (v >>> 4)) = d := by
      rw [level, lastSet_append, lastSet_latch_other hre hrd']
      simpa [level] using hlev
    simp only [sendEvents, hb, hcons, latchesFrom_append, wordLatches]
    rw [hlat _ _ h1, hlat _ _ (by rw [lastSet_latch_en]; simp), hlev, hlev2]
    have hhigh : ∀ v : Byte, (v >>> 4) &&& 0x0F#8 = v >>> 4 := by decide
    rw [hhigh v]; rfl
  · rw [hb] at hlat
    simp only [busLines] at hlat
    simp only [sendEvents, hb, hcons, wordLatches]
    rw [hlat _ _ h1, hlev]

/-! ## Counts and time of a send -/

theorem length_driveFrom (v : Byte) (i : Nat) (ls : List LineId) : (driveFrom v i ls).length = ls.length := by
  induction ls generalizing i with
  | nil => rfl
  | cons l ls ih => simp [driveFrom, ih]

theorem minDuration_driveFrom (v : Byte) (i : Nat) (ls : List LineId) : minDuration (driveFrom v i ls) = 0 := by
  induction ls generalizing i with
  | nil => rfl
  | cons l ls ih => simp [driveFrom, ih]

theorem length_latch {c : Configuration} {w : Nat} (h : w ≤ c.pins.data.length) (v : Byte) :
    (latchEvents c w v).length = w + 6 := by
  simp [latchEvents, length_driveFrom, pulseEvents, h]

theorem minDuration_latch (c : Configuration) (w : Nat) (v : Byte) :
    minDuration (latchEvents c w v) = 3 * tPulse c := by
  simp [latchEvents, minDuration_driveFrom, pulseEvents, minDuration]; omega

theorem length_send {c : Configuration} (h : busLines c.busWidth ≤ c.pins.data.length) (v : Byte) (d : Bool) :
    (sendEvents c v d).length = sendLength c.busWidth := by
  cases hb : c.busWidth <;> rw [hb] at h <;> simp only [busLines] at h <;>
    simp [sendEvents, hb, length_latch h, sendLength]

theorem minDuration_send (c : Configuration) (v : Byte) (d : Bool) :
    minDuration (sendEvents c v d) = sendHolds c.busWidth * tPulse c := by
  cases hb : c.busWidth <;> simp [sendEvents, hb, minDuration_latch, sendHolds]; omega

/-! ## The events as the spec writes them -/

theorem driveFrom_eq_map (v : Byte) (i : Nat) (ls : List LineId) :
    driveFrom v i ls = (ls.zipIdx i).map fun p => Event.set p.1 (v.getLsbD p.2) := by
  induction ls generalizing i with
  | nil => rfl
  | cons l ls ih => simp [driveFrom, ih]

theorem latchEvents_eq_used (c : Configuration) (v : Byte) : latchEvents c (busLines c.busWidth) v = usedLatch c v := by
  simp [latchEvents, usedLatch, latchOf, usedData, driveFrom_eq_map, pulseEvents, pulseOf]

/-- The events of `send` are those R120 writes for its bus word. -/
theorem sendEvents_eq_word (c : Configuration) (v : Byte) (d : Bool) : sendEvents c v d = wordEvents c ⟨d, v⟩ := by
  have h := latchEvents_eq_used c
  cases hb : c.busWidth <;> rw [hb] at h <;> simp only [busLines] at h <;> simp [sendEvents, wordEvents, hb, h]

theorem sendAllEvents_eq_words (c : Configuration) (d : Bool) (vs : List Byte) :
    sendAllEvents c d vs = (vs.map (⟨d, ·⟩)).flatMap (wordEvents c) := by
  simp [sendAllEvents, sendEvents_eq_word, List.flatMap_map]

/-- One `send` carries its bus word, and nothing else. -/
theorem carries_send {s : State} (hu : LinesUsable s.config) (he : EnableIdle s) (v : Byte) (d : Bool) :
    Carries s (sendEvents s.config v d) [⟨d, v⟩] [] := by
  refine ⟨by simp [sendEvents_eq_word], ?_, ?_, ?_⟩
  · rw [latchesFrom_send hu v d _ he]; simp [wordsLatches]
  · simp [length_send hu.1]
  · simp [minDuration_send]

/-- A wait carries no bus word. -/
theorem carries_wait (s : State) (t : Nat) : Carries s [.dly t] [] [t] :=
  ⟨rfl, by rw [latchesFrom_eq_nil _ _ (by simp)]; rfl, by simp, by simp⟩

/-- Sends in order, and then what follows them, carry their bus words in order. -/
theorem carries_append {s : State} {a b : List Event} {ws us : List BusWord} {ys : List Nat}
    (ha : Carries s a ws []) (hb : Carries (emit a s) b us ys) : Carries s (a ++ b) (ws ++ us) ys := by
  obtain ⟨h0, h1, h2, h3⟩ := ha
  obtain ⟨k0, k1, k2, k3⟩ := hb
  simp only [emit_config, emit_trace] at k0 k1 k2 k3
  refine ⟨by rw [k0, h0]; simp, ?_, ?_, ?_⟩
  · rw [latchesFrom_append, h1, k1]; simp [wordsLatches]
  · simp only [List.length_append, h2, k2, Nat.mul_add, List.length_nil]; omega
  · simp only [minDuration_append, h3, k3, List.length_append, List.sum_nil, Nat.mul_add, Nat.add_mul]; omega

theorem carries_sendAll {s : State} (hu : LinesUsable s.config) (he : EnableIdle s) (d : Bool) (vs : List Byte) :
    Carries s (sendAllEvents s.config d vs) (vs.map (⟨d, ·⟩)) [] := by
  induction vs generalizing s with
  | nil => exact ⟨rfl, rfl, rfl, by simp [sendAllEvents]⟩
  | cons v vs ih =>
    have hstep := carries_append (carries_send hu he v d)
      (ih (s := emit (sendEvents s.config v d) s) hu (by simp [EnableIdle, lastSet_send_en]))
    simpa [sendAllEvents] using hstep

theorem enableIdle_emit_send (s : State) (v : Byte) (d : Bool) : EnableIdle (emit (sendEvents s.config v d) s) := by
  simp [EnableIdle, lastSet_send_en]

/-- A valid configuration has usable lines (R202). -/
theorem linesUsable_of_valid {c : Configuration} (h : valid c = true) : LinesUsable c := by
  simp only [valid, Bool.and_eq_true, decide_eq_true_eq] at h
  exact ⟨h.1.2, h.2⟩

end Sys2Proof.Machine
end

