-- ==== Sys2Proof/Laws/Exec.lean ====
section
/-! SUPPORT. What each family of meanings can answer, said once: for every shared operation the list of its outcomes, each
next state written out. Proofs about exec case on these instead of unfolding the meanings. -/

namespace Sys2Proof.Machine

open Sys2Proof.Safety

/-- `answering` answers exactly when what it wraps does. -/
@[simp] theorem answering_next (r : Result) (s : State) : answering r (.next s) = .next (answer r s) := rfl
@[simp] theorem answering_fault (r : Result) (f : Fault) : answering r (.fault f) = .fault f := rfl

theorem answering_eq_next {r : Result} {o : Host.Outcome State Fault Refusal} {t : State}
    (h : answering r o = .next t) : ∃ s, o = .next s ∧ t = answer r s := by
  obtain ⟨s, hs, ht⟩ := andThen_eq_next h
  cases ht
  exact ⟨s, hs, rfl⟩

/-- What a guarded request can answer: refused, NotReady, or what its body answers past the guard. -/
theorem guarded_eq_next {op : HostOp} {body : State → Host.Outcome State Fault Refusal} {s t : State}
    (h : guarded op body s = .next t) :
    (s.fault ≠ none ∧ t = refuse op s) ∨
    (s.fault = none ∧ s.life ≠ .ready ∧ t = raise (.notReady op) s) ∨
    (s.fault = none ∧ s.life = .ready ∧ body s = .next t) := by
  rcases guarded_cases op body s with ⟨hf, hg⟩ | ⟨hf, hl, hg⟩ | ⟨hf, hl, hg⟩
  · rw [hg] at h; cases h; exact .inl ⟨hf, rfl⟩
  · rw [hg] at h; cases h; exact .inr (.inl ⟨hf, hl, rfl⟩)
  · rw [hg] at h; exact .inr (.inr ⟨hf, hl, h⟩)

/-- Lines that exist are the only thing a transfer needs. -/
theorem lines_of_valid {c : Configuration} (h : valid c = true) : busLines c.busWidth ≤ c.pins.data.length :=
  (linesUsable_of_valid h).1

/-! ## The bit transfer layer -/

theorem writeNibble_spec (v : Byte) (s : State) :
    writeNibble v s = if s.config.pins.data.length < 4 then .fault (.missingDataLine 4 s.config.pins.data.length)
      else .next (emit (latchEvents s.config 4 v) s) := latch_spec 4 v s

theorem writeNibble_eq_next {v : Byte} {s t : State} (h : writeNibble v s = .next t) :
    t = emit (latchEvents s.config 4 v) s := by
  rw [writeNibble_spec] at h
  split at h
  · cases h
  · cases h; rfl

theorem writeByte_eq_next {v : Byte} {s t : State} (h : writeByte v s = .next t) :
    (s.config.busWidth = .fourBit ∧ t = raise (.busWidthMisuse v) s) ∨
    (s.config.busWidth = .eightBit ∧ t = emit (latchEvents s.config 8 v) s) := by
  cases hb : s.config.busWidth
  · simp [writeByte, hb] at h; exact .inl ⟨rfl, h.symm⟩
  · simp only [writeByte, hb, ne_eq, not_true_eq_false, if_false, latch_spec] at h
    split at h
    · cases h
    · cases h; exact .inr ⟨rfl, rfl⟩

/-! ## Guarded requests -/

theorem sendInstruction_eq_next {op : HostOp} {v : Byte} {s t : State} (h : sendInstruction op v s = .next t) :
    (s.fault ≠ none ∧ t = refuse op s) ∨
    (s.fault = none ∧ s.life ≠ .ready ∧ t = raise (.notReady op) s) ∨
    (s.fault = none ∧ s.life = .ready ∧ t = answer .ok (emit (sendEvents s.config v false) s)) := by
  rcases guarded_eq_next h with h | h | ⟨hf, hl, h⟩
  · exact .inl h
  · exact .inr (.inl h)
  · obtain ⟨u, hu, rfl⟩ := answering_eq_next h
    rw [send_eq_next hu]
    exact .inr (.inr ⟨hf, hl, rfl⟩)

theorem sendAndBlock_eq_next {op : HostOp} {v : Byte} {s t : State} (h : sendAndBlock op v s = .next t) :
    (s.fault ≠ none ∧ t = refuse op s) ∨
    (s.fault = none ∧ s.life ≠ .ready ∧ t = raise (.notReady op) s) ∨
    (s.fault = none ∧ s.life = .ready ∧
      t = answer .ok (emit (sendEvents s.config v false ++ [.dly (tClear s.config)]) s)) := by
  rcases guarded_eq_next h with h | h | ⟨hf, hl, h⟩
  · exact .inl h
  · exact .inr (.inl h)
  · obtain ⟨u, hu, rfl⟩ := answering_eq_next h
    obtain ⟨w, hw, hu⟩ := andThen_eq_next hu
    rw [send_eq_next hw] at hu
    cases hu
    exact .inr (.inr ⟨hf, hl, by simp⟩)

theorem updateControl_eq_next {op : HostOp} {f : Byte → Byte} {s t : State} (h : updateControl op f s = .next t) :
    (s.fault ≠ none ∧ t = refuse op s) ∨
    (s.fault = none ∧ s.life ≠ .ready ∧ t = raise (.notReady op) s) ∨
    (s.fault = none ∧ s.life = .ready ∧
      t = answer .ok (emit (sendEvents s.config (DISPLAYCONTROL ||| f (controlMask s)) false)
        { s with displayControl := some (f (controlMask s)) })) := by
  rcases guarded_eq_next h with h | h | ⟨hf, hl, h⟩
  · exact .inl h
  · exact .inr (.inl h)
  · obtain ⟨u, hu, rfl⟩ := answering_eq_next h
    rw [send_eq_next hu]
    exact .inr (.inr ⟨hf, hl, rfl⟩)

theorem updateMode_eq_next {op : HostOp} {f : Byte → Byte} {s t : State} (h : updateMode op f s = .next t) :
    (s.fault ≠ none ∧ t = refuse op s) ∨
    (s.fault = none ∧ s.life ≠ .ready ∧ t = raise (.notReady op) s) ∨
    (s.fault = none ∧ s.life = .ready ∧
      t = answer .ok (emit (sendEvents s.config (ENTRYMODESET ||| f (modeMask s)) false)
        { s with displayMode := some (f (modeMask s)) })) := by
  rcases guarded_eq_next h with h | h | ⟨hf, hl, h⟩
  · exact .inl h
  · exact .inr (.inl h)
  · obtain ⟨u, hu, rfl⟩ := answering_eq_next h
    rw [send_eq_next hu]
    exact .inr (.inr ⟨hf, hl, rfl⟩)

theorem execCommand_eq_next {v : Byte} {s t : State} (h : execCommand v s = .next t) :
    (s.fault ≠ none ∧ t = refuse .command s) ∨
    (s.fault = none ∧ s.life ≠ .ready ∧ t = raise (.notReady .command) s) ∨
    (s.fault = none ∧ s.life = .ready ∧ t = answer .ok (emit (sendEvents s.config v false) s)) := by
  rcases guarded_eq_next h with h | h | ⟨hf, hl, h⟩
  · exact .inl h
  · exact .inr (.inl h)
  · obtain ⟨u, hu, rfl⟩ := answering_eq_next h
    rw [send_eq_next hu]
    exact .inr (.inr ⟨hf, hl, rfl⟩)

theorem execWriteChar_eq_next {v : Byte} {s t : State} (h : execWriteChar v s = .next t) :
    (s.fault ≠ none ∧ t = refuse .writeChar s) ∨
    (s.fault = none ∧ s.life ≠ .ready ∧ t = raise (.notReady .writeChar) s) ∨
    (s.fault = none ∧ s.life = .ready ∧ t = answer .ok (emit (sendEvents s.config v true) s)) := by
  rcases guarded_eq_next h with h | h | ⟨hf, hl, h⟩
  · exact .inl h
  · exact .inr (.inl h)
  · obtain ⟨u, hu, rfl⟩ := answering_eq_next h
    rw [send_eq_next hu]
    exact .inr (.inr ⟨hf, hl, rfl⟩)

theorem execSetCursor_eq_next {col row : Byte} {s t : State} (h : execSetCursor col row s = .next t) :
    (s.fault ≠ none ∧ t = refuse .setCursor s) ∨
    (s.fault = none ∧ s.life ≠ .ready ∧ t = raise (.notReady .setCursor) s) ∨
    (s.fault = none ∧ s.life = .ready ∧ ∃ offset, cursorOffset row s = some offset ∧
      t = answer .ok (emit (sendEvents s.config (cursorByte col offset) false) s)) := by
  rcases guarded_eq_next h with h | h | ⟨hf, hl, h⟩
  · exact .inl h
  · exact .inr (.inl h)
  · obtain ⟨u, hu, rfl⟩ := answering_eq_next h
    simp only [placeCursor] at hu
    cases ho : cursorOffset row s with
    | none => simp [ho] at hu
    | some offset =>
      rw [ho] at hu
      rw [send_eq_next hu]
      exact .inr (.inr ⟨hf, hl, offset, rfl, rfl⟩)

theorem execCreateChar_eq_next {l : Byte} {g : Glyph} {s t : State} (h : execCreateChar l g s = .next t) :
    (s.fault ≠ none ∧ t = refuse .createChar s) ∨
    (s.fault = none ∧ s.life ≠ .ready ∧ t = raise (.notReady .createChar) s) ∨
    (s.fault = none ∧ s.life = .ready ∧
      t = answer .ok (emit (sendEvents s.config (glyphAddressByte l) false ++ sendAllEvents s.config true g.rows) s)) := by
  rcases guarded_eq_next h with h | h | ⟨hf, hl, h⟩
  · exact .inl h
  · exact .inr (.inl h)
  · obtain ⟨u, hu, rfl⟩ := answering_eq_next h
    obtain ⟨w, hw, hu⟩ := andThen_eq_next hu
    rw [send_eq_next hw] at hu
    rw [sendAll_eq_next hu]
    exact .inr (.inr ⟨hf, hl, by simp⟩)

theorem execPrint_eq_next {text : List Byte} {s t : State} (h : execPrint text s = .next t) :
    (s.fault ≠ none ∧ t = refuse .print s) ∨
    (s.fault = none ∧ s.life ≠ .ready ∧ t = raise (.notReady .print) s) ∨
    (s.fault = none ∧ s.life = .ready ∧
      t = answer (.okCount text.length) (emit (sendAllEvents s.config true text) s)) := by
  rcases guarded_eq_next h with h | h | ⟨hf, hl, h⟩
  · exact .inl h
  · exact .inr (.inl h)
  · obtain ⟨u, hu, rfl⟩ := answering_eq_next h
    rw [sendAll_eq_next hu]
    exact .inr (.inr ⟨hf, hl, rfl⟩)

/-! ## init -/

/-- The handshake's events (R136, R137). -/
def handshakeEvents (c : Configuration) : List Event :=
  match c.busWidth with
  | .fourBit => latchEvents c 4 0x3 ++ [.dly (tHs41 c)] ++ latchEvents c 4 0x3 ++ [.dly (tHs42 c)]
      ++ latchEvents c 4 0x3 ++ [.dly (tHs43 c)] ++ latchEvents c 4 0x2
  | .eightBit => sendEvents c (functionByte c) false ++ [.dly (tHs81 c)]
      ++ sendEvents c (functionByte c) false ++ [.dly (tHs82 c)] ++ sendEvents c (functionByte c) false

/-- The events of `init` before the handshake (R134, R135). -/
def settleEvents (c : Configuration) : List Event :=
  (.cfg c.pins.rs :: .cfg c.pins.en :: (usedData c).map .cfg)
    ++ [.dly (tPower c), .set c.pins.rs false, .set c.pins.en false]

/-- The events of `init` after the handshake (R139, R140). -/
def finishEvents (c : Configuration) : List Event :=
  sendEvents c (functionByte c) false ++ sendEvents c 0x0C false ++ sendEvents c 0x01 false ++ [.dly (tClear c)]
    ++ sendEvents c 0x06 false

/-- All events of a completed `init`. -/
def initEvents (c : Configuration) : List Event := settleEvents c ++ handshakeEvents c ++ finishEvents c

/-- They are the events R130 writes. -/
theorem initEvents_eq (c : Configuration) : initEvents c = initOf c (functionByte c) := by
  have h := latchEvents_eq_used c
  cases hb : c.busWidth <;> rw [hb] at h <;> simp only [busLines] at h <;>
    simp [initEvents, settleEvents, handshakeEvents, finishEvents, initOf, hb, h, sendEvents_eq_word]

theorem handshake_next {s : State} (h : busLines s.config.busWidth ≤ s.config.pins.data.length) :
    handshake s = .next (emit (handshakeEvents s.config) s) := by
  cases hb : s.config.busWidth with
  | fourBit =>
    rw [hb] at h
    have h4 : ¬ s.config.pins.data.length < 4 := Nat.not_lt.mpr h
    simp [handshake, handshakeFour, hb, writeNibble_spec, h4, wait, handshakeEvents]
  | eightBit =>
    simp only [handshake, hb, handshakeEight]
    rw [send_next h]
    simp only [andThen_next, wait]
    rw [send_next (by exact h)]
    simp only [andThen_next, emit_config]
    rw [send_next (by exact h)]
    simp [handshakeEvents, hb]

/-- The state a completed `init` leaves (R231). -/
def afterInit (s : State) : State :=
  { s with
    life := .ready
    displayFunction := some (functionMask s.config)
    displayControl := some initialControl
    displayMode := some initialMode
    rowOffset := some (rowTable s.config.cols)
    trace := s.trace ++ initEvents s.config
    result := some .ok }

theorem initSteps_next {s : State} (h : busLines s.config.busWidth ≤ s.config.pins.data.length) :
    initSteps s = .next (afterInit s) := by
  have h1 : DISPLAYCONTROL ||| initialControl = 0x0C := by decide
  have h2 : ENTRYMODESET ||| initialMode = 0x06 := by decide
  have h3 : CLEARDISPLAY = 0x01 := rfl
  simp only [initSteps]
  rw [handshake_next (by exact h)]
  simp only [andThen_next, initFunctionSet]
  rw [send_next (by exact h)]
  simp only [andThen_next, initControl, h1]
  rw [send_next (by exact h)]
  simp only [andThen_next, initClear, wait, h3]
  rw [send_next (by exact h)]
  simp only [andThen_next, initMode, h2]
  rw [send_next (by exact h)]
  simp [initDone, afterInit, initEvents, settleEvents, finishEvents, initSettle, initConfigure, initTables, emit, answer]

/-- Everything `init` can do (R130, R208). -/
theorem execInit_spec (s : State) :
    (s.fault ≠ none ∧ execInit s = .next (refuse .init s)) ∨
    (s.fault = none ∧ s.life = .ready ∧ execInit s = .next (raise .alreadyInitialized s)) ∨
    (s.fault = none ∧ s.life ≠ .ready ∧ valid s.config = false ∧
      execInit s = .next (answer .errInvalidConfiguration (emit [.fatal .invalidConfiguration] s))) ∨
    (s.fault = none ∧ s.life ≠ .ready ∧ valid s.config = true ∧ execInit s = .next (afterInit s)) := by
  by_cases hf : s.fault = none
  · by_cases hl : s.life = .ready
    · exact .inr (.inl ⟨hf, hl, by simp [execInit, hf, hl]⟩)
    · cases hv : valid s.config with
      | false => exact .inr (.inr (.inl ⟨hf, hl, rfl, by simp [execInit, hf, hl, hv]⟩))
      | true =>
        refine .inr (.inr (.inr ⟨hf, hl, rfl, ?_⟩))
        simp [execInit, hf, hl, hv, initSteps_next (lines_of_valid hv)]
  · exact .inl ⟨hf, by simp [execInit, hf]⟩

end Sys2Proof.Machine
end

