-- ==== Sys2Proof/Laws/Effect.lean ====
section
/-! SUPPORT. What an instruction can do, said once for all of them: `exec_effect` lists the outcomes of every next state
with the state written out. Rules about every instruction follow by cases on it. -/

namespace Sys2Proof.Machine

open Sys2Proof.Safety

/-- Event lists made of whole latches, whole sends and waits: what every transfer emits. -/
inductive Transfer (c : Configuration) : List Event → Prop where
  | nil : Transfer c []
  | latch (w : Nat) (v : Byte) : Transfer c (latchEvents c w v)
  | send (v : Byte) (d : Bool) : Transfer c (sendEvents c v d)
  | wait (t : Nat) (h : 1 ≤ t) : Transfer c [.dly t]
  | append {a b : List Event} (ha : Transfer c a) (hb : Transfer c b) : Transfer c (a ++ b)

theorem transfer_pulse (c : Configuration) : Transfer c (pulseEvents c) := by
  simpa [latchEvents, driveFrom] using Transfer.latch (c := c) 0 0

theorem transfer_sendAll (c : Configuration) (d : Bool) (vs : List Byte) : Transfer c (sendAllEvents c d vs) := by
  induction vs with
  | nil => exact .nil
  | cons v vs ih => exact .append (.send v d) ih

theorem mem_driveFrom {v : Byte} {i : Nat} {ls : List LineId} {e : Event} (h : e ∈ driveFrom v i ls) :
    ∃ l b, e = .set l b := by
  induction ls generalizing i with
  | nil => cases h
  | cons l ls ih =>
    rcases List.mem_cons.mp h with rfl | h
    · exact ⟨_, _, rfl⟩
    · exact ih h

theorem mem_latch {c : Configuration} {w : Nat} {v : Byte} {e : Event} (h : e ∈ latchEvents c w v) :
    (∃ l b, e = .set l b) ∨ ∃ t, 1 ≤ t ∧ e = .dly t := by
  rcases List.mem_append.mp h with h | h
  · exact .inl (mem_driveFrom h)
  · have h1 : 1 ≤ tPulse c := by simp [tPulse]
    simp only [pulseEvents, List.mem_cons, List.not_mem_nil, or_false] at h
    rcases h with rfl | rfl | rfl | rfl | rfl | rfl
    all_goals first
      | exact .inl ⟨_, _, rfl⟩
      | exact .inr ⟨_, h1, rfl⟩

theorem mem_send {c : Configuration} {v : Byte} {d : Bool} {e : Event} (h : e ∈ sendEvents c v d) :
    (∃ l b, e = .set l b) ∨ ∃ t, 1 ≤ t ∧ e = .dly t := by
  cases hb : c.busWidth <;> simp only [sendEvents, hb, List.mem_cons, List.mem_append] at h
  · rcases h with rfl | h | h
    · exact .inl ⟨_, _, rfl⟩
    · exact mem_latch h
    · exact mem_latch h
  · rcases h with rfl | h
    · exact .inl ⟨_, _, rfl⟩
    · exact mem_latch h

/-- A transfer emits `Set` events and delays of at least a millisecond, nothing else (R113, R215). -/
theorem mem_transfer {c : Configuration} {es : List Event} (h : Transfer c es) {e : Event} (he : e ∈ es) :
    (∃ l b, e = .set l b) ∨ ∃ t, 1 ≤ t ∧ e = .dly t := by
  induction h with
  | nil => cases he
  | latch w v => exact mem_latch he
  | send v d => exact mem_send he
  | wait t ht => rw [List.mem_singleton] at he; exact .inr ⟨t, ht, he⟩
  | append _ _ iha ihb => exact (List.mem_append.mp he).elim iha ihb

/-- A transfer never leaves enable high (R110). -/
theorem transfer_enable {c : Configuration} {es : List Event} (h : Transfer c es) :
    lastSet c.pins.en es ≠ some true := by
  induction h with
  | nil => simp
  | latch w v => have := lastSet_latch_en c w v []; simp at this; simp [this]
  | send v d => have := lastSet_send_en c v d []; simp at this; simp [this]
  | wait t ht => simp [lastSet_cons]
  | @append a b _ _ iha ihb =>
    rw [lastSet_append]
    cases hb : lastSet c.pins.en b with
    | none => simpa using iha
    | some x => rw [hb] at ihb; simpa using ihb

/-- The handshake is a transfer (R136, R137). -/
theorem transfer_handshake (c : Configuration) : Transfer c (handshakeEvents c) := by
  have h41 : 1 ≤ tHs41 c := by simp only [tHs41]; omega
  have h42 : 1 ≤ tHs42 c := by simp only [tHs42]; omega
  have h43 : 1 ≤ tHs43 c := by simp only [tHs43]; omega
  have h81 : 1 ≤ tHs81 c := by simp only [tHs81]; omega
  have h82 : 1 ≤ tHs82 c := by simp only [tHs82]; omega
  cases hb : c.busWidth <;> simp only [handshakeEvents, hb]
  · exact ((((((Transfer.latch 4 0x3).append (.wait _ h41)).append (.latch 4 0x3)).append (.wait _ h42)).append
      (.latch 4 0x3)).append (.wait _ h43)).append (.latch 4 0x2)
  · exact ((((Transfer.send _ false).append (.wait _ h81)).append (.send _ false)).append (.wait _ h82)).append
      (.send _ false)

/-- Steps 7 to 10 of `init` are a transfer (R139, R140). -/
theorem transfer_finish (c : Configuration) : Transfer c (finishEvents c) :=
  ((((Transfer.send _ false).append (.send 0x0C false)).append (.send 0x01 false)).append
    (.wait _ (by simp only [tClear]; omega))).append (.send 0x06 false)

/-- An event of `init` after the line configuration and the settle is one of a transfer. -/
theorem mem_initEvents {c : Configuration} {e : Event} (h : e ∈ initEvents c) :
    e ∈ settleEvents c ∨ (∃ l b, e = .set l b) ∨ ∃ t, 1 ≤ t ∧ e = .dly t := by
  rw [initEvents, List.append_assoc] at h
  rcases List.mem_append.mp h with h | h
  · exact .inl h
  · exact .inr (mem_transfer ((transfer_handshake c).append (transfer_finish c)) h)

/-- `init` leaves enable low (R231). -/
theorem lastSet_init_en (c : Configuration) (before : List Event) :
    lastSet c.pins.en (before ++ initEvents c) = some false := by
  rw [initEvents, finishEvents]
  simp only [← List.append_assoc]
  exact lastSet_send_en c 0x06 false _

/-- The events of whole bus words, and waits after them: what every host request but `init` emits (R98). -/
def WholeWords (c : Configuration) (es : List Event) : Prop :=
  ∃ (ws : List BusWord) (waits : List Nat), es = ws.flatMap (wordEvents c) ++ waits.map .dly

theorem wholeWords_send (c : Configuration) (v : Byte) (d : Bool) : WholeWords c (sendEvents c v d) :=
  ⟨[⟨d, v⟩], [], by simp [sendEvents_eq_word]⟩

theorem wholeWords_sendAll (c : Configuration) (d : Bool) (vs : List Byte) : WholeWords c (sendAllEvents c d vs) :=
  ⟨vs.map (⟨d, ·⟩), [], by simp [sendAllEvents_eq_words]⟩

/-- What an instruction did, when it answered a next state. -/
inductive Effect (i : Instr) (s : State) : State → Prop where
  /-- R206 -/
  | refused (op : HostOp) (hi : i.hostOp = some op) (hf : s.fault ≠ none) : Effect i s (refuse op s)
  /-- R204 -/
  | notReady (op : HostOp) (hi : i.hostOp = some op) (hne : op ≠ .init) (hf : s.fault = none) (hl : s.life ≠ .ready) :
      Effect i s (raise (.notReady op) s)
  /-- R205 -/
  | already (hi : i = .init) (hf : s.fault = none) (hl : s.life = .ready) : Effect i s (raise .alreadyInitialized s)
  /-- R202 -/
  | invalid (hi : i = .init) (hf : s.fault = none) (hl : s.life ≠ .ready) (hv : valid s.config = false) :
      Effect i s (answer .errInvalidConfiguration (emit [.fatal .invalidConfiguration] s))
  /-- R130, R141 -/
  | initialized (hi : i = .init) (hf : s.fault = none) (hl : s.life ≠ .ready) (hv : valid s.config = true) :
      Effect i s (afterInit s)
  /-- R207 -/
  | misuse (v : Byte) (hi : i = .writeByte v) (hb : s.config.busWidth = .fourBit) :
      Effect i s (raise (.busWidthMisuse v) s)
  /-- R80, R110 to R120: a transfer of the block's own -/
  | transfer (hi : i.hostOp = none) (es : List Event) (he : Transfer s.config es) : Effect i s (emit es s)
  /-- R121, R122, R160 to R181: a host request past its guard -/
  | request (op : HostOp) (hi : i.hostOp = some op) (hne : op ≠ .init) (hf : s.fault = none) (hl : s.life = .ready)
      (es : List Event) (he : Transfer s.config es) (hw : WholeWords s.config es)
      (hen : es = [] ∨ lastSet s.config.pins.en es = some false)
      (dc dm : Option Byte)
      (hdc : dc = s.displayControl ∨
        (i ∈ [Instr.display, .noDisplay, .cursor, .noCursor, .blink, .noBlink] ∧
          ∃ f : Byte, ∃ g : Byte → Byte, dc = some (g (controlMask s)) ∧ f &&& 0xF8#8 = 0#8 ∧ (g = (setFlag · f) ∨ g = (clearFlag · f))))
      (hdm : dm = s.displayMode ∨
        (i ∈ [Instr.leftToRight, .rightToLeft, .autoscroll, .noAutoscroll] ∧
          ∃ f : Byte, ∃ g : Byte → Byte, dm = some (g (modeMask s)) ∧ f &&& 0xFC#8 = 0#8 ∧ (g = (setFlag · f) ∨ g = (clearFlag · f))))
      (hms : s.config.timing = .default → minDuration es = minimumMs s.config.busWidth op (printLength i)) :
      Effect i s { s with
        displayControl := dc
        displayMode := dm
        trace := s.trace ++ es
        result := some (if op = .print then .okCount (printLength i) else .ok) }

theorem lastSet_send_nil (c : Configuration) (v : Byte) (d : Bool) :
    lastSet c.pins.en (sendEvents c v d) = some false := by
  simpa using lastSet_send_en c v d []

theorem minDuration_send_default {c : Configuration} (h : c.timing = .default) (v : Byte) (d : Bool) :
    minDuration (sendEvents c v d) = match c.busWidth with | .fourBit => 6 | .eightBit => 3 := by
  rw [minDuration_send]
  cases hb : c.busWidth <;> simp [sendHolds, tPulse, h, Timing.default]

theorem minDuration_sendAll (c : Configuration) (d : Bool) (vs : List Byte) :
    minDuration (sendAllEvents c d vs) = sendHolds c.busWidth * tPulse c * vs.length := by
  induction vs with
  | nil => rfl
  | cons v vs ih =>
    simp only [sendAllEvents] at ih
    simp [sendAllEvents, minDuration_send, ih, Nat.mul_add]; omega

theorem minDuration_sendAll_default {c : Configuration} (h : c.timing = .default) (d : Bool) (vs : List Byte) :
    minDuration (sendAllEvents c d vs) = (match c.busWidth with | .fourBit => 6 | .eightBit => 3) * vs.length := by
  rw [minDuration_sendAll]
  cases hb : c.busWidth <;> simp [sendHolds, tPulse, h, Timing.default]

theorem lastSet_sendAll (c : Configuration) (d : Bool) (vs : List Byte) :
    sendAllEvents c d vs = [] ∨ lastSet c.pins.en (sendAllEvents c d vs) = some false := by
  cases vs with
  | nil => exact .inl rfl
  | cons v vs =>
    right
    change lastSet _ (sendEvents c v d ++ sendAllEvents c d vs) = _
    have := transfer_enable (transfer_sendAll c d vs)
    rw [lastSet_append, lastSet_send_nil]
    revert this
    rcases lastSet c.pins.en (sendAllEvents c d vs) with _ | _ | _ <;> simp

theorem effect_sendInstruction {i : Instr} {op : HostOp} {v : Byte} {s t : State} (hi : i.hostOp = some op)
    (hne : op ≠ .init) (hnp : op ≠ .print)
    (hms : ∀ b n, minimumMs b op n = match b with | .fourBit => 6 | .eightBit => 3)
    (h : sendInstruction op v s = .next t) : Effect i s t := by
  rcases sendInstruction_eq_next h with ⟨hf, rfl⟩ | ⟨hf, hl, rfl⟩ | ⟨hf, hl, rfl⟩
  · exact .refused op hi hf
  · exact .notReady op hi hne hf hl
  · have := Effect.request op hi hne hf hl _ (.send v false) (wholeWords_send ..) (.inr (lastSet_send_nil ..)) s.displayControl
      s.displayMode (.inl rfl) (.inl rfl) (fun hd => by rw [minDuration_send_default hd, hms])
    simpa [hnp, emit, answer] using this

theorem effect_sendAndBlock {i : Instr} {op : HostOp} {v : Byte} {s t : State} (hi : i.hostOp = some op)
    (hne : op ≠ .init) (hnp : op ≠ .print)
    (hms : ∀ b n, minimumMs b op n = match b with | .fourBit => 8 | .eightBit => 5)
    (h : sendAndBlock op v s = .next t) : Effect i s t := by
  rcases sendAndBlock_eq_next h with ⟨hf, rfl⟩ | ⟨hf, hl, rfl⟩ | ⟨hf, hl, rfl⟩
  · exact .refused op hi hf
  · exact .notReady op hi hne hf hl
  · have := Effect.request op hi hne hf hl _
      (.append (.send v false) (.wait (tClear s.config) (by simp [tClear]; omega)))
      ⟨[⟨false, v⟩], [tClear s.config], by simp [sendEvents_eq_word]⟩ (.inr (by simp [lastSet_append, lastSet_cons, lastSet_send_nil])) s.displayControl
      s.displayMode (.inl rfl) (.inl rfl) (fun hd => by
        rw [minDuration_append, minDuration_send_default hd, hms]
        cases s.config.busWidth <;> simp [minDuration, tClear, hd, Timing.default])
    simpa [hnp, emit, answer] using this

theorem effect_updateControl {i : Instr} {op : HostOp} {f : Byte} {g : Byte → Byte} {s t : State}
    (hi : i.hostOp = some op) (hne : op ≠ .init) (hnp : op ≠ .print)
    (hms : ∀ b n, minimumMs b op n = match b with | .fourBit => 6 | .eightBit => 3)
    (hmem : i ∈ [Instr.display, .noDisplay, .cursor, .noCursor, .blink, .noBlink])
    (hf8 : f &&& 0xF8#8 = 0#8) (hg : g = (setFlag · f) ∨ g = (clearFlag · f))
    (h : updateControl op g s = .next t) : Effect i s t := by
  rcases updateControl_eq_next h with ⟨hf, rfl⟩ | ⟨hf, hl, rfl⟩ | ⟨hf, hl, rfl⟩
  · exact .refused op hi hf
  · exact .notReady op hi hne hf hl
  · have := Effect.request op hi hne hf hl _ (.send (DISPLAYCONTROL ||| g (controlMask s)) false) (wholeWords_send ..)
      (.inr (lastSet_send_nil ..)) (some (g (controlMask s))) s.displayMode (.inr ⟨hmem, f, g, rfl, hf8, hg⟩)
      (.inl rfl) (fun hd => by rw [minDuration_send_default hd, hms])
    simpa [hnp, emit, answer] using this

theorem effect_updateMode {i : Instr} {op : HostOp} {f : Byte} {g : Byte → Byte} {s t : State}
    (hi : i.hostOp = some op) (hne : op ≠ .init) (hnp : op ≠ .print)
    (hms : ∀ b n, minimumMs b op n = match b with | .fourBit => 6 | .eightBit => 3)
    (hmem : i ∈ [Instr.leftToRight, .rightToLeft, .autoscroll, .noAutoscroll])
    (hfc : f &&& 0xFC#8 = 0#8) (hg : g = (setFlag · f) ∨ g = (clearFlag · f))
    (h : updateMode op g s = .next t) : Effect i s t := by
  rcases updateMode_eq_next h with ⟨hf, rfl⟩ | ⟨hf, hl, rfl⟩ | ⟨hf, hl, rfl⟩
  · exact .refused op hi hf
  · exact .notReady op hi hne hf hl
  · have := Effect.request op hi hne hf hl _ (.send (ENTRYMODESET ||| g (modeMask s)) false) (wholeWords_send ..)
      (.inr (lastSet_send_nil ..)) s.displayControl (some (g (modeMask s))) (.inl rfl)
      (.inr ⟨hmem, f, g, rfl, hfc, hg⟩) (fun hd => by rw [minDuration_send_default hd, hms])
    simpa [hnp, emit, answer] using this

theorem effect_send {i : Instr} {v : Byte} {d : Bool} {s t : State} (hi : i.hostOp = none)
    (h : send v d s = .next t) : Effect i s t := by
  rw [send_eq_next h]; exact .transfer hi _ (.send v d)

/-- Everything an instruction can do when it answers a next state. -/
theorem exec_effect {i : Instr} {s t : State} (h : exec i s = .next t) : Effect i s t := by
  cases i with
  | clearDisplay => exact effect_send rfl h
  | returnHome x => exact effect_send rfl h
  | entryModeSet a b => exact effect_send rfl h
  | displayControl a b c => exact effect_send rfl h
  | cursorShift a b x => exact effect_send rfl h
  | functionSet a b c x => exact effect_send rfl h
  | setCgramAddr a => exact effect_send rfl h
  | setDdramAddr a => exact effect_send rfl h
  | data d => exact effect_send rfl h
  | nonInstr00 => exact effect_send rfl h
  | hsNib3 => rw [writeNibble_eq_next h]; exact .transfer rfl _ (.latch 4 _)
  | hsNib2 => rw [writeNibble_eq_next h]; exact .transfer rfl _ (.latch 4 _)
  | pulseEnable => cases h; exact .transfer rfl _ (transfer_pulse _)
  | writeNibble v => rw [writeNibble_eq_next h]; exact .transfer rfl _ (.latch 4 _)
  | writeByte v =>
    rcases writeByte_eq_next h with ⟨hb, rfl⟩ | ⟨hb, rfl⟩
    · exact .misuse v rfl hb
    · exact .transfer rfl _ (.latch 8 v)
  | send v d => exact effect_send rfl h
  | command v => exact effect_sendInstruction (v := v) rfl (by decide) (by decide) (fun _ _ => rfl) h
  | writeChar v =>
    rcases execWriteChar_eq_next h with ⟨hf, rfl⟩ | ⟨hf, hl, rfl⟩ | ⟨hf, hl, rfl⟩
    · exact .refused .writeChar rfl hf
    · exact .notReady .writeChar rfl (by decide) hf hl
    · exact Effect.request .writeChar rfl (by decide) hf hl _ (.send v true) (wholeWords_send ..) (.inr (lastSet_send_nil ..))
        s.displayControl s.displayMode (.inl rfl) (.inl rfl) (fun hd => by rw [minDuration_send_default hd]; rfl)
  | init =>
    rcases execInit_spec s with ⟨hf, hs⟩ | ⟨hf, hl, hs⟩ | ⟨hf, hl, hv, hs⟩ | ⟨hf, hl, hv, hs⟩
    all_goals
      have ht : execInit s = .next t := h
      rw [hs] at ht
      cases ht
    · exact .refused .init rfl hf
    · exact .already rfl hf hl
    · exact .invalid rfl hf hl hv
    · exact .initialized rfl hf hl hv
  | clear => exact effect_sendAndBlock rfl (by decide) (by decide) (fun _ _ => rfl) h
  | home => exact effect_sendAndBlock rfl (by decide) (by decide) (fun _ _ => rfl) h
  | setCursor col row =>
    rcases execSetCursor_eq_next h with ⟨hf, rfl⟩ | ⟨hf, hl, rfl⟩ | ⟨hf, hl, o, -, rfl⟩
    · exact .refused .setCursor rfl hf
    · exact .notReady .setCursor rfl (by decide) hf hl
    · exact Effect.request .setCursor rfl (by decide) hf hl _ (.send (cursorByte col o) false)
        (wholeWords_send ..) (.inr (lastSet_send_nil ..)) s.displayControl s.displayMode (.inl rfl) (.inl rfl)
        (fun hd => by rw [minDuration_send_default hd]; rfl)
  | display =>
    exact effect_updateControl (f := DISPLAYON) rfl (by decide) (by decide) (fun _ _ => rfl) (by simp) (by decide)
      (.inl rfl) h
  | noDisplay =>
    exact effect_updateControl (f := DISPLAYON) rfl (by decide) (by decide) (fun _ _ => rfl) (by simp) (by decide)
      (.inr rfl) h
  | cursor =>
    exact effect_updateControl (f := CURSORON) rfl (by decide) (by decide) (fun _ _ => rfl) (by simp) (by decide)
      (.inl rfl) h
  | noCursor =>
    exact effect_updateControl (f := CURSORON) rfl (by decide) (by decide) (fun _ _ => rfl) (by simp) (by decide)
      (.inr rfl) h
  | blink =>
    exact effect_updateControl (f := BLINKON) rfl (by decide) (by decide) (fun _ _ => rfl) (by simp) (by decide)
      (.inl rfl) h
  | noBlink =>
    exact effect_updateControl (f := BLINKON) rfl (by decide) (by decide) (fun _ _ => rfl) (by simp) (by decide)
      (.inr rfl) h
  | scrollDisplayLeft => exact effect_sendInstruction rfl (by decide) (by decide) (fun _ _ => rfl) h
  | scrollDisplayRight => exact effect_sendInstruction rfl (by decide) (by decide) (fun _ _ => rfl) h
  | leftToRight =>
    exact effect_updateMode (f := ENTRYLEFT) rfl (by decide) (by decide) (fun _ _ => rfl) (by simp) (by decide)
      (.inl rfl) h
  | rightToLeft =>
    exact effect_updateMode (f := ENTRYLEFT) rfl (by decide) (by decide) (fun _ _ => rfl) (by simp) (by decide)
      (.inr rfl) h
  | autoscroll =>
    exact effect_updateMode (f := ENTRYSHIFTINCREMENT) rfl (by decide) (by decide) (fun _ _ => rfl) (by simp)
      (by decide) (.inl rfl) h
  | noAutoscroll =>
    exact effect_updateMode (f := ENTRYSHIFTINCREMENT) rfl (by decide) (by decide) (fun _ _ => rfl) (by simp)
      (by decide) (.inr rfl) h
  | createChar l g =>
    rcases execCreateChar_eq_next h with ⟨hf, rfl⟩ | ⟨hf, hl, rfl⟩ | ⟨hf, hl, rfl⟩
    · exact .refused .createChar rfl hf
    · exact .notReady .createChar rfl (by decide) hf hl
    · refine Effect.request .createChar rfl (by decide) hf hl _
        (.append (.send (glyphAddressByte l) false) (transfer_sendAll s.config true g.rows))
        ⟨⟨false, glyphAddressByte l⟩ :: g.rows.map (⟨true, ·⟩), [], by simp [sendEvents_eq_word, sendAllEvents_eq_words]⟩
        (.inr ?_) s.displayControl s.displayMode (.inl rfl) (.inl rfl) ?_
      · rcases lastSet_sendAll s.config true g.rows with h0 | h0
        · rw [h0, List.append_nil]; exact lastSet_send_nil ..
        · rw [lastSet_append, h0]; rfl
      · intro hd
        rw [minDuration_append, minDuration_send_default hd, minDuration_sendAll_default hd]
        cases s.config.busWidth <;> rfl
  | print text =>
    rcases execPrint_eq_next h with ⟨hf, rfl⟩ | ⟨hf, hl, rfl⟩ | ⟨hf, hl, rfl⟩
    · exact .refused .print rfl hf
    · exact .notReady .print rfl (by decide) hf hl
    · refine Effect.request .print rfl (by decide) hf hl _ (transfer_sendAll s.config true text) (wholeWords_sendAll ..)
        (lastSet_sendAll ..) s.displayControl s.displayMode (.inl rfl) (.inl rfl) ?_
      intro hd
      rw [minDuration_sendAll_default hd]
      cases s.config.busWidth <;> rfl

end Sys2Proof.Machine
end

