-- ==== Sys2Proof/Laws/Frames.lean ====
section
/-! SUPPORT. Reading the frames of a trace in parts (R92): at a boundary the reading starts afresh, events that configure no
line leave only their latches to read, and the events of bus words read as those words. -/

namespace Sys2Proof.Machine

open Sys2Proof.Safety

theorem marksFrom_append (c : Configuration) (before a b : List Event) :
    marksFrom c before (a ++ b) = marksFrom c before a ++ marksFrom c (before ++ a) b := by
  induction a generalizing before with
  | nil => simp [marksFrom]
  | cons e a ih => simp [marksFrom, ih]

/-- Without a configuration of register-select, the marks are the latches. -/
theorem marksFrom_eq_latches (c : Configuration) (before : List Event) {es : List Event}
    (h : Event.cfg c.pins.rs ∉ es) : marksFrom c before es = (latchesFrom c before es).map .latch := by
  induction es generalizing before with
  | nil => rfl
  | cons e es ih =>
    simp only [List.mem_cons, not_or] at h
    have he : e ≠ .cfg c.pins.rs := Ne.symm h.1
    by_cases hf : isFalling c before e = true <;> simp [marksFrom, latchesFrom, he, hf, ih _ h.2]

/-- Marks that end at a boundary: what follows is read afresh. -/
theorem framesFrom_append {b : BusWidth} {skip : Nat} {half : Option Latch} {ms ns : List Mark} {fs : List Frame}
    (h : framesFrom b skip half ms = some fs) :
    framesFrom b skip half (ms ++ ns) = (framesFrom b 0 none ns).map (fs ++ ·) := by
  induction ms generalizing skip half fs with
  | nil =>
    simp only [framesFrom] at h
    split at h
    · rename_i hz
      obtain ⟨rfl, rfl⟩ := hz
      cases h
      simp
    · cases h
  | cons m ms ih =>
    have step : ∀ (k : Nat) (f : Frame), (framesFrom b k none ms).map (f :: ·) = some fs →
        (framesFrom b k none (ms ++ ns)).map (f :: ·) = (framesFrom b 0 none ns).map (fs ++ ·) := by
      intro k f hk
      obtain ⟨gs, hg, rfl⟩ := Option.map_eq_some_iff.mp hk
      rw [ih hg, Option.map_map]
      rfl
    cases m with
    | initStart =>
      simp only [framesFrom, List.cons_append] at h ⊢
      split at h
      · rename_i hz
        rw [if_pos hz]
        exact ih h
      · cases h
    | latch l =>
      cases skip with
      | succ k => exact step _ _ h
      | zero =>
        cases b with
        | eightBit => exact step _ _ h
        | fourBit =>
          cases half with
          | none => exact ih h
          | some hi =>
            simp only [framesFrom, List.cons_append] at h ⊢
            split at h
            · rename_i hr
              rw [if_pos hr]
              exact step _ _ h
            · cases h

/-- Adding events to a trace that ends at a boundary adds their frames. -/
theorem frames_append {c : Configuration} {a es : List Event} {fs gs : List Frame} (h : frames c a = some fs)
    (hg : framesFrom c.busWidth 0 none (marksFrom c a es) = some gs) : frames c (a ++ es) = some (fs ++ gs) := by
  unfold frames at h ⊢
  rw [marksFrom_append, framesFrom_append h]
  simp [hg]

/-- The two nibbles of a byte make it up again (R64). -/
theorem nibbles_byte : ∀ d : Byte, ((d >>> 4) <<< 4) ||| (d &&& 0x0F#8) = d := by decide +kernel

/-- The latches of bus words read as those words. -/
theorem framesFrom_words (b : BusWidth) (ws : List BusWord) :
    framesFrom b 0 none ((wordsLatches b ws).map .latch) = some (ws.map .word) := by
  induction ws with
  | nil => rfl
  | cons w ws ih =>
    simp only [wordsLatches] at ih
    cases b <;> simp [wordsLatches, wordLatches, framesFrom, ih, nibbles_byte]

theorem cfg_notMem_word (c : Configuration) (w : BusWord) (l : LineId) : Event.cfg l ∉ wordEvents c w := by
  cases hb : c.busWidth <;> simp [wordEvents, usedLatch, latchOf, pulseOf, hb]

theorem cfg_notMem_words (c : Configuration) (ws : List BusWord) (waits : List Nat) (l : LineId) :
    Event.cfg l ∉ ws.flatMap (wordEvents c) ++ waits.map .dly := by
  simp [cfg_notMem_word]

/-- A word's events leave enable low. -/
theorem lastSet_word_en (c : Configuration) (w : BusWord) (before : List Event) :
    lastSet c.pins.en (before ++ wordEvents c w) = some false := by
  rw [← sendEvents_eq_word]
  exact lastSet_send_en c w.d w.rs before

/-- The latches of bus words, and waits after them, are the words' latches (R92). -/
theorem latchesFrom_words {c : Configuration} (hu : LinesUsable c) (ws : List BusWord) (waits : List Nat)
    (before : List Event) (h : lastSet c.pins.en before ≠ some true) :
    latchesFrom c before (ws.flatMap (wordEvents c) ++ waits.map .dly) = wordsLatches c.busWidth ws := by
  induction ws generalizing before with
  | nil => exact latchesFrom_eq_nil c before (by simp)
  | cons w ws ih =>
    rw [List.flatMap_cons, List.append_assoc, latchesFrom_append, ih _ (by rw [lastSet_word_en]; simp),
      ← sendEvents_eq_word, latchesFrom_send hu w.d w.rs before h]
    rfl

/-- The events of bus words, added to a trace that ends at a boundary with enable low, add those words. -/
theorem frames_words {c : Configuration} (hu : LinesUsable c) {a : List Event} {fs : List Frame}
    (h : frames c a = some fs) (he : lastSet c.pins.en a ≠ some true) (ws : List BusWord) (waits : List Nat) :
    frames c (a ++ (ws.flatMap (wordEvents c) ++ waits.map .dly)) = some (fs ++ ws.map .word) := by
  refine frames_append h ?_
  rw [marksFrom_eq_latches c a (cfg_notMem_words c ws waits _), latchesFrom_words hu ws waits a he]
  exact framesFrom_words c.busWidth ws

/-- The events of `init` mark its start once, and for the rest their latches. -/
theorem marksFrom_init {c : Configuration} (hu : LinesUsable c) (before : List Event) :
    marksFrom c before (initEvents c) = .initStart :: (latchesFrom c before (initEvents c)).map .latch := by
  obtain ⟨hre, hrd, -⟩ := linesUsable_facts hu
  have hl : ∀ w v, Event.cfg c.pins.rs ∉ latchEvents c w v := by
    intro w v h
    rcases mem_latch h with ⟨_, _, h⟩ | ⟨_, _, h⟩ <;> cases h
  have hs : ∀ v d, Event.cfg c.pins.rs ∉ sendEvents c v d := by
    intro v d
    rw [sendEvents_eq_word]
    exact cfg_notMem_word c _ _
  have hh : Event.cfg c.pins.rs ∉ handshakeEvents c := by
    cases hb : c.busWidth <;> simp [handshakeEvents, hb, hl, hs]
  obtain ⟨es, h, hn⟩ : ∃ es, initEvents c = .cfg c.pins.rs :: es ∧ Event.cfg c.pins.rs ∉ es :=
    ⟨_, rfl, by simp [hre, hrd, finishEvents, hs, hh]⟩
  rw [h]
  simp [marksFrom, latchesFrom, isFalling, marksFrom_eq_latches _ _ hn]

end Sys2Proof.Machine
end

