-- ==== Sys2Proof/Laws/PerInstr.lean ====
section
/-! SUPPORT. Said of every instruction, one lemma a constructor: exactly one of the two callers may ask for it (R45), a bus
word or a handshake nibble is the block's own, and a written call is one line (R97). -/

namespace Sys2Proof.Laws

open Sys2Proof

/-- The line feed stands in no written number. -/
theorem renderByte_one_line : ∀ b : Byte, 0x0A#8 ∉ renderByte b := by decide +kernel

theorem joinArgs_one_line (args : List (List Byte)) (h : ∀ a ∈ args, 0x0A#8 ∉ a) : 0x0A#8 ∉ joinArgs args := by
  match args with
  | [] => simp [joinArgs]
  | [a] => exact h a (by simp)
  | a :: b :: rest =>
    have := joinArgs_one_line (b :: rest) (fun x hx => h x (List.mem_cons_of_mem _ hx))
    simp [joinArgs, this, h a (by simp)]

theorem spelling_one_line (n : CallName) : 0x0A#8 ∉ n.spelling := by
  rcases n with op | _ | _ | _ | _
  · cases op <;> decide
  all_goals decide

theorem callLine_one_line (n : CallName) (args : List (List Byte)) (h : ∀ a ∈ args, 0x0A#8 ∉ a) :
    0x0A#8 ∉ callLine n args := by
  simp [callLine, spelling_one_line n, joinArgs_one_line args h]

theorem renderList_one_line (bs : List Byte) : 0x0A#8 ∉ renderList bs := by
  have : ∀ a ∈ bs.map renderByte, 0x0A#8 ∉ a := by
    intro a ha
    obtain ⟨b, -, rfl⟩ := List.mem_map.mp ha
    exact renderByte_one_line b
  simp [renderList, joinArgs_one_line _ this]

theorem renderText_one_line (t : List Byte) : 0x0A#8 ∉ renderText t := by
  unfold renderText
  split
  · rename_i h
    intro hm
    simp only [List.cons_append, List.nil_append, List.mem_cons, List.mem_append, List.not_mem_nil, or_false] at hm
    rcases hm with hm | hm | hm
    · exact absurd hm (by decide)
    · exact absurd (List.all_eq_true.mp h _ hm) (by decide)
    · exact absurd hm (by decide)
  · exact renderList_one_line t

/-- What a written form looks like. -/
def Written.Form (i : Instr) : Code → Prop
  | .bus9 _ => WellFormed .block i = true
  | .nib4 _ => WellFormed .block i = true
  | .call line => 0x0A#8 ∉ line

/-- The statement of the family. -/
def Written.Statement (i : Instr) : Prop :=
  WellFormed .host i = !WellFormed .block i ∧ Written.Form i (encode i)

theorem Written.clearDisplay : Written.Statement (.clearDisplay) :=
  ⟨rfl, rfl⟩

theorem Written.returnHome (x : BitVec 1) : Written.Statement (.returnHome x) :=
  ⟨rfl, rfl⟩

theorem Written.entryModeSet (left increment : Bool) : Written.Statement (.entryModeSet left increment) :=
  ⟨rfl, rfl⟩

theorem Written.displayControl (displayOn cursorOn blinkOn : Bool) : Written.Statement (.displayControl displayOn cursorOn blinkOn) :=
  ⟨rfl, rfl⟩

theorem Written.cursorShift (displayMove moveRight : Bool) (x : BitVec 2) : Written.Statement (.cursorShift displayMove moveRight x) :=
  ⟨rfl, rfl⟩

theorem Written.functionSet (eightBit twoLine dots5x10 : Bool) (x : BitVec 2) : Written.Statement (.functionSet eightBit twoLine dots5x10 x) :=
  ⟨rfl, rfl⟩

theorem Written.setCgramAddr (a : BitVec 6) : Written.Statement (.setCgramAddr a) :=
  ⟨rfl, rfl⟩

theorem Written.setDdramAddr (a : BitVec 7) : Written.Statement (.setDdramAddr a) :=
  ⟨rfl, rfl⟩

theorem Written.data (d : Byte) : Written.Statement (.data d) :=
  ⟨rfl, rfl⟩

theorem Written.nonInstr00 : Written.Statement (.nonInstr00) :=
  ⟨rfl, rfl⟩

theorem Written.hsNib3 : Written.Statement (.hsNib3) :=
  ⟨rfl, rfl⟩

theorem Written.hsNib2 : Written.Statement (.hsNib2) :=
  ⟨rfl, rfl⟩

theorem Written.pulseEnable : Written.Statement (.pulseEnable) :=
  ⟨rfl, callLine_one_line _ _ (by simp)⟩

theorem Written.writeNibble (v : Byte) : Written.Statement (.writeNibble v) :=
  ⟨rfl, callLine_one_line _ _ (by simp [renderByte_one_line])⟩

theorem Written.writeByte (v : Byte) : Written.Statement (.writeByte v) :=
  ⟨rfl, callLine_one_line _ _ (by simp [renderByte_one_line])⟩

theorem Written.send (v : Byte) (isData : Bool) : Written.Statement (.send v isData) :=
  ⟨rfl, callLine_one_line _ _ (by cases isData <;> simp [renderByte_one_line, renderBool])⟩

theorem Written.command (v : Byte) : Written.Statement (.command v) :=
  ⟨rfl, callLine_one_line _ _ (by simp [renderByte_one_line])⟩

theorem Written.writeChar (v : Byte) : Written.Statement (.writeChar v) :=
  ⟨rfl, callLine_one_line _ _ (by simp [renderByte_one_line])⟩

theorem Written.init : Written.Statement (.init) :=
  ⟨rfl, callLine_one_line _ _ (by simp)⟩

theorem Written.clear : Written.Statement (.clear) :=
  ⟨rfl, callLine_one_line _ _ (by simp)⟩

theorem Written.home : Written.Statement (.home) :=
  ⟨rfl, callLine_one_line _ _ (by simp)⟩

theorem Written.setCursor (col row : Byte) : Written.Statement (.setCursor col row) :=
  ⟨rfl, callLine_one_line _ _ (by simp [renderByte_one_line])⟩

theorem Written.display : Written.Statement (.display) :=
  ⟨rfl, callLine_one_line _ _ (by simp)⟩

theorem Written.noDisplay : Written.Statement (.noDisplay) :=
  ⟨rfl, callLine_one_line _ _ (by simp)⟩

theorem Written.cursor : Written.Statement (.cursor) :=
  ⟨rfl, callLine_one_line _ _ (by simp)⟩

theorem Written.noCursor : Written.Statement (.noCursor) :=
  ⟨rfl, callLine_one_line _ _ (by simp)⟩

theorem Written.blink : Written.Statement (.blink) :=
  ⟨rfl, callLine_one_line _ _ (by simp)⟩

theorem Written.noBlink : Written.Statement (.noBlink) :=
  ⟨rfl, callLine_one_line _ _ (by simp)⟩

theorem Written.scrollDisplayLeft : Written.Statement (.scrollDisplayLeft) :=
  ⟨rfl, callLine_one_line _ _ (by simp)⟩

theorem Written.scrollDisplayRight : Written.Statement (.scrollDisplayRight) :=
  ⟨rfl, callLine_one_line _ _ (by simp)⟩

theorem Written.leftToRight : Written.Statement (.leftToRight) :=
  ⟨rfl, callLine_one_line _ _ (by simp)⟩

theorem Written.rightToLeft : Written.Statement (.rightToLeft) :=
  ⟨rfl, callLine_one_line _ _ (by simp)⟩

theorem Written.autoscroll : Written.Statement (.autoscroll) :=
  ⟨rfl, callLine_one_line _ _ (by simp)⟩

theorem Written.noAutoscroll : Written.Statement (.noAutoscroll) :=
  ⟨rfl, callLine_one_line _ _ (by simp)⟩

theorem Written.createChar (location : Byte) (glyph : Glyph) : Written.Statement (.createChar location glyph) :=
  ⟨rfl, callLine_one_line _ _ (by simp [renderByte_one_line, renderList_one_line])⟩

theorem Written.print (text : List Byte) : Written.Statement (.print text) :=
  ⟨rfl, callLine_one_line _ _ (by simp [renderText_one_line])⟩

end Sys2Proof.Laws
end

