-- ==== Sys2Proof/Laws/Step.lean ====
section
/-! SUPPORT. What one step can be, and a run of steps, peeled off one at a time. -/

namespace Sys2Proof.Laws

open Sys2Proof Sys2Proof.Machine

/-- A step does nothing, refuses what stands first, or runs the first request. -/
theorem step_cases (s : State) :
    (s.pending = [] ∧ step s = .next s)
      ∨ (∃ r rest e, s.pending = r :: rest ∧ decode r.code = .error e ∧ step s = .refused (.undecodable e))
      ∨ (∃ r rest i, s.pending = r :: rest ∧ decode r.code = .ok i ∧ WellFormed r.caller i = false
          ∧ step s = .refused (.notRequestable r.caller i))
      ∨ (∃ r rest i, s.pending = r :: rest ∧ decode r.code = .ok i ∧ WellFormed r.caller i = true
          ∧ step s = exec i { s with pending := rest }) := by
  cases hp : s.pending with
  | nil => exact .inl ⟨rfl, by simp [step, fetch, hp]⟩
  | cons r rest =>
    refine .inr ?_
    cases hd : decode r.code with
    | error e => exact .inl ⟨r, rest, e, rfl, hd, by simp [step, fetch, hp, hd]⟩
    | ok i =>
      cases hw : WellFormed r.caller i with
      | false => exact .inr (.inl ⟨r, rest, i, rfl, hd, hw, by simp [step, fetch, hp, hd, hw]⟩)
      | true => exact .inr (.inr ⟨r, rest, i, rfl, hd, hw, by simp [step, fetch, hp, hd, hw]⟩)

/-- A run of any machine, one step at a time. -/
theorem run_succ (M : Host.Core) (k : Nat) (s : M.State) :
    M.run (k + 1) s =
      match M.step s with
      | .next t => M.run k t
      | .fault f => .fault f
      | .refused r => .refused r := by
  rfl

/-- A run whose first step answers a next state goes on from there. -/
theorem core_run_next {k : Nat} {s t : State} (h : step s = .next t) :
    Sys2Proof.core.run (k + 1) s = Sys2Proof.core.run k t := by
  have hc : Sys2Proof.core.step s = .next t := h
  rw [run_succ Sys2Proof.core k s, hc]

end Sys2Proof.Laws
end

