-- ==== Sys2Proof/Tests/Slice0.lean ====
section
/-! SUPPORT. Tests on small states, one step each. Every expected value is from spec/95_test_vectors.md (W, V, P ids) or
written out from the rule named; then, for each obligation with hypotheses, a state and operands that meet them. -/

namespace Sys2Proof.Tests

set_option Elab.async false

open Sys2Proof Sys2Proof.Machine Sys2Proof.Safety

/-! ## Helpers -/

/-- The ASCII codes of a text. -/
def ascii (s : String) : List Byte := s.toList.map fun c => BitVec.ofNat 8 c.toNat

/-- Lines 0 rs, 1 en, then the data lines. -/
def pinsOf (n : Nat) : Pins := { rs := ⟨0⟩, en := ⟨1⟩, data := (List.range n).map fun k => ⟨k + 2⟩ }

/-- A configuration at default timing. -/
def cfgOf (b : BusWidth) (n cols rows : Nat) (f : Font) : Configuration :=
  { cfgPresent := true, pins := pinsOf n, busWidth := b, cols := cols, rows := rows, font := f, timing := .default }

/-- The configurations of 95_test_vectors.md. -/
def K4 : Configuration := cfgOf .fourBit 4 16 2 .font5x8
def K8 : Configuration := cfgOf .eightBit 8 16 2 .font5x8
def K8W : Configuration := cfgOf .eightBit 8 40 4 .font5x8
def K8Q : Configuration := cfgOf .eightBit 8 20 4 .font5x8
def K4S : Configuration := cfgOf .fourBit 4 16 1 .font5x10

/-- Right after construction. -/
def fresh (c : Configuration) : State := State.construct c

/-- The fields as `init` leaves them, with an empty trace. -/
def ready (c : Configuration) : State :=
  { State.construct c with
    life := .ready
    displayFunction := some (functionMask c)
    displayControl := some 0x04
    displayMode := some 0x02
    rowOffset := some (rowTable c.cols) }

/-- `ready` with other masks. -/
def masks (c : Configuration) (dc dm : Byte) : State := { ready c with displayControl := some dc, displayMode := some dm }

/-- A state with a fault standing. -/
def faulted (c : Configuration) (k : FaultKind) : State := { fresh c with fault := some k }

/-- The host's requests, one line each. -/
def hostLines (ls : List String) (s : State) : State :=
  { s with pending := ls.map fun l => ⟨.host, .call (ascii l)⟩ }

/-- The next state, where there is one. -/
def after (o : Host.Outcome State Fault Refusal) : Option State :=
  match o with
  | .next t => some t
  | .fault _ => none
  | .refused _ => none

/-- Why it stopped, where it did. -/
def stopOf (o : Host.Outcome State Fault Refusal) : Option (Fault ⊕ Refusal) :=
  match o with
  | .next _ => none
  | .fault f => some (.inl f)
  | .refused r => some (.inr r)

/-- What one instruction did: the answer, the latches as (rs, value), the number of events and their milliseconds. -/
def did (i : Instr) (s : State) : Option (Option Result × List (Bool × Byte) × Nat × Nat) :=
  (after (exec i s)).map fun t =>
    let es := t.trace.drop s.trace.length
    (t.result, (latchesFrom s.config s.trace es).map (fun l => (l.rs, l.value)), es.length, minDuration es)

/-- The events one instruction appended to an empty trace. -/
def emitted (i : Instr) (s : State) : Option (List Event) := (after (exec i s)).map (·.trace)

/-- The two masks after one instruction. -/
def masksAfter (i : Instr) (s : State) : Option (Option Byte × Option Byte) :=
  (after (exec i s)).map fun t => (t.displayControl, t.displayMode)

/-- The pulse `P` of the notation, at default timing. -/
def pulse : List Event := [.set ⟨1⟩ false, .dly 1, .set ⟨1⟩ true, .dly 1, .set ⟨1⟩ false, .dly 1]

/-- The levels of the data lines in order, `d0` first. -/
def drive (bs : List Bool) : List Event := (bs.zipIdx).map fun p => .set ⟨p.2 + 2⟩ p.1

/-- `rs=b`. -/
def regSel (b : Bool) : List Event := [.set ⟨0⟩ b]

/-- A glyph of eight equal rows. -/
def flat (b : Byte) : Glyph := ⟨b, b, b, b, b, b, b, b⟩

/-! ## Who may ask (R45): each check of WellFormed refuses its ill-formed term -/

theorem test_host_may_not_ask_for_a_bus_word : WellFormed .host .clearDisplay = false := by decide
theorem test_host_may_not_ask_for_a_nibble : WellFormed .host .hsNib3 = false := by decide
theorem test_host_may_not_ask_for_pulseEnable : WellFormed .host .pulseEnable = false := by decide
theorem test_host_may_not_ask_for_writeNibble : WellFormed .host (.writeNibble 3) = false := by decide
theorem test_host_may_not_ask_for_writeByte : WellFormed .host (.writeByte 3) = false := by decide
theorem test_host_may_not_ask_for_send : WellFormed .host (.send 0x28 false) = false := by decide
theorem test_block_does_not_ask_for_a_host_request : WellFormed .block .clear = false := by decide
theorem test_block_does_not_ask_for_init : WellFormed .block .init = false := by decide
theorem test_host_may_ask_for_print : WellFormed .host (.print [0x41]) = true := by decide
theorem test_block_may_ask_for_send : WellFormed .block (.send 0x28 false) = true := by decide

/-! ## Decoding: words written out from R81 to R91 -/

/-- R82: 0 0000 0001 -/
theorem test_decode_clearDisplay : decodeTableWord 16 0b000000001 = some .clearDisplay := by decide
/-- R83: 0 0000 001x -/
theorem test_decode_returnHome : decodeTableWord 16 0b000000011 = some (.returnHome 1) := by decide
/-- R84: 0 0000 01IS -/
theorem test_decode_entryModeSet : decodeTableWord 16 0b000000101 = some (.entryModeSet false true) := by decide
/-- R85: 0 0000 1DCB -/
theorem test_decode_displayControl : decodeTableWord 16 0b000001011 = some (.displayControl false true true) := by decide
/-- R86: 0 0001 MRxx -/
theorem test_decode_cursorShift : decodeTableWord 16 0b000011001 = some (.cursorShift true false 1) := by decide
/-- R87: 0 001L NFxx -/
theorem test_decode_functionSet : decodeTableWord 16 0b000100100 = some (.functionSet false false true 0) := by decide
/-- R89: 0 01aa aaaa -/
theorem test_decode_setCgramAddr : decodeTableWord 16 0b001111000 = some (.setCgramAddr 0x38) := by decide
/-- R88: 0 1aaa aaaa -/
theorem test_decode_setDdramAddr : decodeTableWord 16 0b011000000 = some (.setDdramAddr 0x40) := by decide
/-- R90: 1 dddd dddd -/
theorem test_decode_data : decodeTableWord 16 0b100000001 = some (.data 0x01) := by decide
/-- R95 (b): 0 0000 0000 -/
theorem test_decode_nonInstr00 : decodeTableWord 16 0 = some .nonInstr00 := by decide
/-- R91: 0 0011 and 0 0010 -/
theorem test_decode_handshake_nibbles :
    decodeTableWord 8 0b00011 = some .hsNib3 ∧ decodeTableWord 8 0b00010 = some .hsNib2 := by decide
/-- R91: rs = 0 in both. -/
theorem test_decode_no_other_nibble : decode (.nib4 0b10011) = .error (.notHandshakeNibble 0b10011) := by decide
theorem test_decode_no_wider_word : decodeTableWord 16 512 = none ∧ decodeTableWord 8 32 = none := by decide

/-! ## Decoding: lines of R97, the source's own examples among them -/

theorem test_line_init : decodeLine (ascii "init()") = .ok .init := by rfl
theorem test_line_setCursor : decodeLine (ascii "setCursor(3, 7)") = .ok (.setCursor 3 7) := by rfl
theorem test_line_print : decodeLine (ascii "print(\"Hi\")") = .ok (.print [0x48, 0x69]) := by rfl
theorem test_line_empty_print : decodeLine (ascii "print(\"\")") = .ok (.print []) := by rfl
theorem test_line_createChar :
    decodeLine (ascii "createChar(9, [0x00, 0x0A, 0x1F, 0x1F, 0x0E, 0x04, 0x00, 0x00])")
      = .ok (.createChar 9 ⟨0x00, 0x0A, 0x1F, 0x1F, 0x0E, 0x04, 0x00, 0x00⟩) := by rfl
theorem test_line_command_hex : decodeLine (ascii "command(0x01)") = .ok (.command 1) := by rfl
theorem test_line_writeChar_decimal : decodeLine (ascii "writeChar(255)") = .ok (.writeChar 255) := by rfl
theorem test_line_send : decodeLine (ascii "send(0x28, false)") = .ok (.send 0x28 false) := by rfl
theorem test_line_names :
    [decodeLine (ascii "clear()"), decodeLine (ascii "home()"), decodeLine (ascii "display()"),
      decodeLine (ascii "noDisplay()"), decodeLine (ascii "cursor()"), decodeLine (ascii "noCursor()"),
      decodeLine (ascii "blink()"), decodeLine (ascii "noBlink()")]
      = [.ok .clear, .ok .home, .ok .display, .ok .noDisplay, .ok .cursor, .ok .noCursor, .ok .blink, .ok .noBlink] := by
  rfl
theorem test_line_more_names :
    [decodeLine (ascii "scrollDisplayLeft()"), decodeLine (ascii "scrollDisplayRight()"),
      decodeLine (ascii "leftToRight()"), decodeLine (ascii "rightToLeft()"), decodeLine (ascii "autoscroll()"),
      decodeLine (ascii "noAutoscroll()"), decodeLine (ascii "pulseEnable()")]
      = [.ok .scrollDisplayLeft, .ok .scrollDisplayRight, .ok .leftToRight, .ok .rightToLeft, .ok .autoscroll,
        .ok .noAutoscroll, .ok .pulseEnable] := by rfl
theorem test_line_internal_procedures :
    [decodeLine (ascii "writeNibble(0xA7)"), decodeLine (ascii "writeByte(0xA5)")]
      = [.ok (.writeNibble 0xA7), .ok (.writeByte 0xA5)] := by rfl

/-- Each way a line is no instruction has its name. -/
theorem test_line_bad_character : decodeLine (ascii "clear();") = .error (.badCharacter 0x3B) := by rfl
theorem test_line_open_string : decodeLine (ascii "print(\"Hi)") = .error .openString := by rfl
theorem test_line_not_a_call : decodeLine (ascii "clear") = .error .notACall := by rfl
theorem test_line_unknown_name : decodeLine (ascii "setBacklight(1)") = .error (.unknownName (ascii "setBacklight")) := by rfl
theorem test_line_bad_number : decodeLine (ascii "command(x)") = .error (.badNumber (ascii "x")) := by rfl
/-- D2: an argument wider than 8 bits cannot be written. -/
theorem test_line_too_wide : decodeLine (ascii "command(256)") = .error (.tooWide 256) := by rfl
theorem test_line_bad_arguments : decodeLine (ascii "setCursor(3)") = .error .badArguments := by rfl
/-- R180: exactly eight rows. -/
theorem test_line_not_eight_rows : decodeLine (ascii "createChar(0, [1, 2])") = .error (.notEightRows 2) := by rfl

/-- The program P4, one request a line. -/
theorem test_program_lines :
    (programRequests (ascii "init()\ninit()\ncommand(0x01)\ninit()\n")).map (fun r => (r.caller, decode r.code))
      = [(.host, .ok .init), (.host, .ok .init), (.host, .ok (.command 1)), (.host, .ok .init)] := by rfl

/-! ## The bit transfer layer (W12, V1 to V7) -/

theorem test_W12_pulseEnable : emitted .pulseEnable (fresh K4) = some pulse := by decide +kernel
theorem test_V2_writeNibble :
    emitted (.writeNibble 0x3) (fresh K4) = some (drive [true, true, false, false] ++ pulse) := by decide +kernel
theorem test_V3_writeNibble_ignores_high_bits :
    emitted (.writeNibble 0xA7) (fresh K4) = some (drive [true, true, true, false] ++ pulse) := by decide +kernel
theorem test_V5_writeByte :
    emitted (.writeByte 0xA5) (fresh K8)
      = some (drive [true, false, true, false, false, true, false, true] ++ pulse) := by decide +kernel
theorem test_V7_writeByte_misuse :
    (after (exec (.writeByte 0x12) (fresh K4))).map (fun t => (t.fault, t.trace)) = some (some (.busWidthMisuse 0x12), []) := by
  decide +kernel
theorem test_missing_data_line :
    stopOf (exec (.writeNibble 0) (fresh (cfgOf .fourBit 3 16 2 .font5x8))) = some (.inl (.missingDataLine 4 3)) := by
  decide +kernel

/-! ## The latch reader's corner cases (R93) -/

theorem test_latch_needs_a_high_enable :
    latches K4 [.set ⟨1⟩ false, .set ⟨2⟩ true, .set ⟨1⟩ false] = [] := by decide +kernel
theorem test_latch_at_the_falling_edge :
    latches K4 ([.set ⟨0⟩ false, .set ⟨3⟩ false, .set ⟨4⟩ false, .set ⟨5⟩ false]
      ++ [.set ⟨1⟩ true, .set ⟨2⟩ true, .set ⟨1⟩ false]) = [⟨false, 1⟩] := by decide +kernel

/-! ## The command/data layer (W1, W2, V10 to V16) -/

theorem test_W1_send_four :
    emitted (.send 0x28 false) (fresh K4)
      = some (regSel false ++ drive [false, true, false, false] ++ pulse ++ drive [false, false, false, true] ++ pulse) := by
  decide +kernel
theorem test_W2_send_eight :
    emitted (.send 0x38 false) (fresh K8)
      = some (regSel false ++ drive [false, false, false, true, true, true, false, false] ++ pulse) := by
  decide +kernel
theorem test_V10_command :
    did (.command 0x28) (ready K4) = some (some .ok, [(false, 2), (false, 8)], 21, 6) := by decide +kernel
theorem test_V13_raw_clear_does_not_wait :
    did (.command 0x01) (ready K8) = some (some .ok, [(false, 0x01)], 15, 3) := by decide +kernel
theorem test_V14_writeChar :
    did (.writeChar 0x48) (ready K4) = some (some .ok, [(true, 4), (true, 8)], 21, 6) := by decide +kernel
theorem test_V15_writeChar :
    did (.writeChar 0xFF) (ready K8) = some (some .ok, [(true, 0xFF)], 15, 3) := by decide +kernel

/-! ## Bus words and handshake nibbles as the block's own transfers (R80, R92, R136; the words of V30 and V31) -/

theorem test_word_clearDisplay :
    (did .clearDisplay (ready K4)).map (·.2) = some ([(false, 0), (false, 1)], 21, 6) := by decide +kernel
theorem test_word_returnHome :
    (did (.returnHome 0) (ready K8)).map (·.2) = some ([(false, 0x02)], 15, 3) := by decide +kernel
theorem test_word_entryModeSet :
    (did (.entryModeSet true false) (ready K4)).map (·.2) = some ([(false, 0), (false, 6)], 21, 6) := by decide +kernel
theorem test_word_displayControl :
    (did (.displayControl true false false) (ready K4)).map (·.2) = some ([(false, 0), (false, 0xC)], 21, 6) := by
  decide +kernel
theorem test_word_cursorShift :
    (did (.cursorShift true true 0) (ready K8)).map (·.2) = some ([(false, 0x1C)], 15, 3) := by decide +kernel
theorem test_word_functionSet :
    (did (.functionSet true true false 0) (ready K8)).map (·.2) = some ([(false, 0x38)], 15, 3) := by decide +kernel
theorem test_word_setCgramAddr :
    (did (.setCgramAddr 0x38) (ready K8)).map (·.2) = some ([(false, 0x78)], 15, 3) := by decide +kernel
theorem test_word_setDdramAddr :
    (did (.setDdramAddr 0x43) (ready K4)).map (·.2) = some ([(false, 0xC), (false, 3)], 21, 6) := by decide +kernel
theorem test_word_data :
    (did (.data 0x69) (ready K8)).map (·.2) = some ([(true, 0x69)], 15, 3) := by decide +kernel
theorem test_word_nonInstr00 :
    (did .nonInstr00 (ready K4)).map (·.2) = some ([(false, 0), (false, 0)], 21, 6) := by decide +kernel
theorem test_hsNib3 :
    emitted .hsNib3 (fresh K4) = some (drive [true, true, false, false] ++ pulse) := by decide +kernel
theorem test_hsNib2 :
    emitted .hsNib2 (fresh K4) = some (drive [false, true, false, false] ++ pulse) := by decide +kernel

/-! ## Initialization (V30 to V37) -/

/-- V30 and V31, R92: the frames of the trace of `init`: the four bare nibbles are no halves of words. -/
theorem test_init_frames_four :
    (emitted .init (fresh K4)).bind (frames K4)
      = some [.handshake ⟨false, 3⟩, .handshake ⟨false, 3⟩, .handshake ⟨false, 3⟩, .handshake ⟨false, 2⟩,
        .word ⟨false, 0x28⟩, .word ⟨false, 0x0C⟩, .word ⟨false, 0x01⟩, .word ⟨false, 0x06⟩] := by decide +kernel
theorem test_init_frames_eight :
    (emitted .init (fresh K8)).bind (frames K8)
      = some ([0x38, 0x38, 0x38, 0x38, 0x0C, 0x01, 0x06].map fun d => .word ⟨false, d⟩) := by decide +kernel
/-- R140's table, V30, W9: the waits of `init` longer than a hold, each with the number of `Set` events before it. -/
theorem test_init_delays :
    (emitted .init (fresh K4)).map (fun es => (es.zipIdx.filterMap fun p =>
        match p.1 with | .dly t => if t = 1 then none else some (t, countSet (es.take p.2)) | _ => none))
      = some [(40, 0), (5, 9), (5, 16), (2, 23), (2, 75)] := by decide +kernel

theorem test_V30_init_four :
    did .init (fresh K4) = some (some .ok,
      [(false, 3), (false, 3), (false, 3), (false, 2), (false, 2), (false, 8), (false, 0), (false, 0xC),
        (false, 0), (false, 1), (false, 0), (false, 6)], 137, 90) := by decide +kernel
theorem test_V31_init_eight :
    did .init (fresh K8) = some (some .ok,
      [(false, 0x38), (false, 0x38), (false, 0x38), (false, 0x38), (false, 0x0C), (false, 0x01), (false, 0x06)], 121, 70) := by
  decide +kernel

/-- V32 to V37: the function mask and the row table of each configuration. -/
theorem test_V32_to_V37_tables :
    ([K4S, cfgOf .fourBit 4 16 2 .font5x10, K8Q, K8W, cfgOf .eightBit 8 16 1 .font5x8, cfgOf .fourBit 4 8 1 .font5x8].map
      fun c => (functionMask c, rowTable c.cols))
      = [(0x04, ⟨0x00, 0x40, 0x10, 0x50⟩), (0x08, ⟨0x00, 0x40, 0x10, 0x50⟩), (0x18, ⟨0x00, 0x40, 0x14, 0x54⟩),
        (0x18, ⟨0x00, 0x40, 0x28, 0x68⟩), (0x10, ⟨0x00, 0x40, 0x10, 0x50⟩), (0x00, ⟨0x00, 0x40, 0x08, 0x48⟩)] := by
  decide +kernel

/-! ## Controller operations (V40 to V63) -/

theorem test_V40_clear : did .clear (ready K4) = some (some .ok, [(false, 0), (false, 1)], 22, 8) := by decide +kernel
theorem test_V41_home : did .home (ready K8W) = some (some .ok, [(false, 0x02)], 16, 5) := by decide +kernel
theorem test_V43_setCursor_clamps : did (.setCursor 3 7) (ready K8W) = some (some .ok, [(false, 0xEB)], 15, 3) := by
  decide +kernel
theorem test_V46_setCursor_wraps : did (.setCursor 200 3) (ready K8W) = some (some .ok, [(false, 0xB0)], 15, 3) := by
  decide +kernel
theorem test_V48_display : did .display (ready K4) = some (some .ok, [(false, 0), (false, 0xC)], 21, 6) := by decide +kernel
theorem test_V49_noDisplay :
    did .noDisplay (ready K8W) = some (some .ok, [(false, 0x08)], 15, 3)
      ∧ masksAfter .noDisplay (ready K8W) = some (some 0x00, some 0x02) := by decide +kernel
/-- The corner case: from dc = 0x07, noDisplay gives 0x03 and sends 0x0B. -/
theorem test_noDisplay_keeps_the_other_bits :
    masksAfter .noDisplay (masks K8 0x07 0x02) = some (some 0x03, some 0x02) := by decide +kernel
/-- The corner case: from dc = 0x00, cursor gives 0x02 and sends 0x0A. -/
theorem test_cursor_from_zero :
    did .cursor (masks K8 0x00 0x02) = some (some .ok, [(false, 0x0A)], 15, 3) := by decide +kernel
theorem test_V50_cursor : masksAfter .cursor (ready K4) = some (some 0x06, some 0x02) := by decide +kernel
theorem test_V51_noCursor : did .noCursor (ready K8W) = some (some .ok, [(false, 0x0C)], 15, 3) := by decide +kernel
theorem test_V52_blink : masksAfter .blink (ready K4) = some (some 0x05, some 0x02) := by decide +kernel
theorem test_V53_noBlink : masksAfter .noBlink (masks K4 0x07 0x02) = some (some 0x06, some 0x02) := by decide +kernel
theorem test_V54_scrollDisplayLeft :
    did .scrollDisplayLeft (ready K4) = some (some .ok, [(false, 1), (false, 8)], 21, 6) := by decide +kernel
theorem test_V55_scrollDisplayRight :
    did .scrollDisplayRight (ready K8W) = some (some .ok, [(false, 0x1C)], 15, 3) := by decide +kernel
theorem test_V56_leftToRight : masksAfter .leftToRight (masks K4 0x04 0x01) = some (some 0x04, some 0x03) := by decide +kernel
theorem test_V57_rightToLeft :
    did .rightToLeft (ready K8W) = some (some .ok, [(false, 0x04)], 15, 3)
      ∧ masksAfter .rightToLeft (ready K8W) = some (some 0x04, some 0x00) := by decide +kernel
theorem test_V58_autoscroll :
    did .autoscroll (ready K8W) = some (some .ok, [(false, 0x07)], 15, 3)
      ∧ masksAfter .autoscroll (ready K8W) = some (some 0x04, some 0x03) := by decide +kernel
theorem test_V59_noAutoscroll : masksAfter .noAutoscroll (masks K4 0x04 0x03) = some (some 0x04, some 0x02) := by
  decide +kernel
theorem test_V60_createChar :
    did (.createChar 0 (flat 0x1F)) (ready K8W)
      = some (some .ok, (false, 0x40) :: List.replicate 8 (true, 0x1F), 135, 27) := by decide +kernel
/-- W5, the corner case on glyph bits: location 2, rows 0xFF and 0x80 sent verbatim. -/
theorem test_createChar_verbatim :
    did (.createChar 2 ⟨0xFF, 0x80, 0, 0, 0, 0, 0, 0⟩) (ready K8W)
      = some (some .ok, (false, 0x50) :: (true, 0xFF) :: (true, 0x80) :: List.replicate 6 (true, 0x00), 135, 27) := by
  decide +kernel
theorem test_V62_print_empty : did (.print []) (ready K4) = some (some (.okCount 0), [], 0, 0) := by decide +kernel
theorem test_V63_print :
    did (.print [0x41, 0x42]) (ready K4)
      = some (some (.okCount 2), [(true, 4), (true, 1), (true, 4), (true, 2)], 42, 12) := by decide +kernel

/-! ## Errors, faults and refusals (V70 to V86) -/

/-- What a request led to. -/
def ended (i : Instr) (s : State) : Option (Option Result × List Event × Life × Option FaultKind) :=
  (after (exec i s)).map fun t => (t.result, t.trace, t.life, t.fault)

/-- V70 to V80: each ground of R202 on its own, and the boundaries that pass. -/
theorem test_V70_to_V80_valid :
    [{ K4 with cfgPresent := false }, { K4 with rows := 0 }, { K4 with rows := 5 }, { K4 with cols := 0 },
      { K4 with cols := 41 }, { K4 with cols := 40, rows := 4 }, { K4 with pins := pinsOf 3 },
      { K8 with pins := pinsOf 4 }, { K8 with pins := pinsOf 9 }, { K4 with pins := { pinsOf 4 with rs := ⟨1⟩ } },
      { K4 with pins := { pinsOf 4 with data := (pinsOf 4).data ++ List.replicate 4 ⟨0⟩ } }].map valid
      = [false, false, false, false, false, true, false, false, false, false, true] := by decide +kernel

/-- V70, V84, V82: `init` turned away. -/
theorem test_V70_V84_V82_init :
    ended .init (fresh { K4 with cfgPresent := false })
        = some (some .errInvalidConfiguration, [.fatal .invalidConfiguration], .uninitialized, none)
      ∧ ended .init (ready K8) = some (some (.faulted .alreadyInitialized), [], .ready, some .alreadyInitialized)
      ∧ ended .init (faulted K4 (.notReady .command))
        = some (some (.refused .init), [], .uninitialized, some (.notReady .command)) := by
  refine ⟨?_, ?_, ?_⟩ <;> decide +kernel

/-- V81, V83: the guard, before the loop of `print` too. -/
theorem test_V81_V83_guard :
    ended (.command 0x01) (fresh K4)
        = some (some (.faulted (.notReady .command)), [], .uninitialized, some (.notReady .command))
      ∧ ended (.print []) (fresh K4)
        = some (some (.faulted (.notReady .print)), [], .uninitialized, some (.notReady .print)) := by
  refine ⟨?_, ?_⟩ <;> decide +kernel

/-- The priority example of R208: refused, and no `Fatal` event. -/
theorem test_priority :
    ended .init (faulted { K4 with cfgPresent := false } (.notReady .command))
      = some (some (.refused .init), [], .uninitialized, some (.notReady .command)) := by decide +kernel
/-- R201: the codes. -/
theorem test_outcome_codes :
    [outcomeCode .errInvalidConfiguration, outcomeCode (.faulted (.notReady .clear)),
      outcomeCode (.faulted .alreadyInitialized), outcomeCode (.faulted (.busWidthMisuse 0)), outcomeCode (.refused .clear)]
      = [some 1, some 2, some 3, some 4, some 5] := by decide +kernel

/-! ## Steps -/

theorem test_idle_step : after (step State.reset) = some State.reset := by decide +kernel
theorem test_step_runs_a_line :
    (after (step (hostLines ["init()", "clear()"] (fresh K4)))).map (fun t => (t.life, t.result, t.pending.length))
      = some (.ready, some .ok, 1) := by decide +kernel
theorem test_step_refuses_an_internal_procedure :
    stopOf (step (hostLines ["pulseEnable()"] (ready K4))) = some (.inr (.notRequestable .host .pulseEnable)) := by
  decide +kernel
theorem test_step_refuses_no_instruction :
    stopOf (step (hostLines ["clear"] (ready K4))) = some (.inr (.undecodable .notACall)) := by decide +kernel
theorem test_fetch_word_runs :
    (after (step (State.reset.withFetchWord 16 0x028))).map (fun t => (t.trace.length, t.pending)) = some (21, []) := by
  decide +kernel

/-! ## Hazards of the host (R242 to R244) -/

theorem test_glyph_hazard :
    glyphHazard [⟨false, 0x48⟩, ⟨true, 0x1F⟩] (.writeChar 1) = true
      ∧ glyphHazard [⟨false, 0x48⟩, ⟨true, 0x1F⟩, ⟨false, 0xD7⟩] (.writeChar 1) = false := by decide +kernel
theorem test_raw_timing_hazard :
    rawTimingHazard (.command 0x01) = true ∧ rawTimingHazard (.command 0x0C) = false := by decide +kernel
theorem test_raw_shadow_hazard :
    rawShadowHazard K4 (.command 0x38) = true ∧ rawShadowHazard K4 (.command 0x28) = false := by decide +kernel

/-! ## For each obligation with hypotheses, what meets them all together

The states are `fresh` and `ready` ones of the configurations of 95_test_vectors.md. -/

theorem open_K4 : Open (ready K4) := ⟨rfl, rfl, by decide +kernel⟩
theorem open_K8 : Open (ready K8) := ⟨rfl, rfl, by decide +kernel⟩
theorem idle_ready (c : Configuration) : EnableIdle (ready c) := fun h => nomatch h
theorem idle_fresh (c : Configuration) : EnableIdle (fresh c) := fun h => nomatch h
theorem usable_K4 : LinesUsable K4 := ⟨by decide +kernel, by decide +kernel⟩
theorem usable_K8 : LinesUsable K8 := ⟨by decide +kernel, by decide +kernel⟩

/-- `ready` with the events of one character sent. -/
def sentOne (c : Configuration) : State := { ready c with trace := wordEvents c ⟨true, 0x48⟩ }

/-- K4 and K8 with register-select driven low. -/
def selected (c : Configuration) : State := { fresh c with trace := [.set c.pins.rs false] }

theorem witness_StepRunsFirstRequest :
    ∃ (s : State) (r : Request) (rest : List Request) (i : Instr),
      s.pending = r :: rest ∧ decode r.code = .ok i ∧ WellFormed r.caller i = true :=
  ⟨hostLines ["clear()"] (ready K4), ⟨.host, .call (ascii "clear()")⟩, [], .clear, rfl, rfl, rfl⟩

theorem witness_StepWithoutAnInstruction :
    (∃ s : State, s.pending = [])
    ∧ (∃ s : State, ∃ r rest e, s.pending = r :: rest ∧ decode r.code = .error e)
    ∧ (∃ s : State, ∃ r rest i, s.pending = r :: rest ∧ decode r.code = .ok i ∧ WellFormed r.caller i = false) :=
  ⟨⟨fresh K4, rfl⟩,
    ⟨hostLines ["clear"] (fresh K4), ⟨.host, .call (ascii "clear")⟩, [], .notACall, rfl, rfl⟩,
    ⟨hostLines ["pulseEnable()"] (fresh K4), ⟨.host, .call (ascii "pulseEnable()")⟩, [], .pulseEnable, rfl, rfl, rfl⟩⟩

theorem witness_HostRequestsAreExactlyThese :
    Instr.hostOp .clear = some .clear ∧ HostOp.clear ≠ .init ∧ (fresh K4).fault = none ∧ (fresh K4).life ≠ .ready := by
  decide +kernel

theorem witness_WriteNibbleEvents : (fresh K4).config.pins.data = ⟨2⟩ :: ⟨3⟩ :: ⟨4⟩ :: ⟨5⟩ :: [] := by decide +kernel

theorem witness_WriteByteEvents :
    (fresh K4).config.busWidth = .fourBit
    ∧ ((fresh K8).config.busWidth = .eightBit
      ∧ (fresh K8).config.pins.data = ⟨2⟩ :: ⟨3⟩ :: ⟨4⟩ :: ⟨5⟩ :: ⟨6⟩ :: ⟨7⟩ :: ⟨8⟩ :: ⟨9⟩ :: []) := by decide +kernel

/-- At the boundaries: three lines for a nibble, seven for a byte. -/
theorem witness_MissingDataLineStops :
    (fresh { K4 with pins := pinsOf 3 }).config.pins.data.length < 4
    ∧ ((fresh { K8 with pins := pinsOf 7 }).config.busWidth = .eightBit
      ∧ (fresh { K8 with pins := pinsOf 7 }).config.pins.data.length < 8)
    ∧ (fresh { K8 with pins := pinsOf 7 }).config.pins.data.length
        < busLines (fresh { K8 with pins := pinsOf 7 }).config.busWidth := by decide +kernel

theorem witness_SendEvents :
    ((fresh K4).config.busWidth = .fourBit ∧ (fresh K4).config.pins.data = ⟨2⟩ :: ⟨3⟩ :: ⟨4⟩ :: ⟨5⟩ :: [])
    ∧ ((fresh K8).config.busWidth = .eightBit
      ∧ (fresh K8).config.pins.data = ⟨2⟩ :: ⟨3⟩ :: ⟨4⟩ :: ⟨5⟩ :: ⟨6⟩ :: ⟨7⟩ :: ⟨8⟩ :: ⟨9⟩ :: []) := by decide +kernel

theorem witness_BusWordTransfers :
    (encode (.functionSet false true false 0) = .bus9 0x028 ∧ LinesUsable (fresh K4).config ∧ EnableIdle (fresh K4))
    ∧ (encode (.data 0x48) = .bus9 0x148 ∧ LinesUsable (fresh K8).config ∧ EnableIdle (fresh K8)) :=
  ⟨⟨by decide +kernel, usable_K4, idle_fresh K4⟩, ⟨by decide +kernel, usable_K8, idle_fresh K8⟩⟩

theorem witness_HandshakeNibbleTransfers :
    (selected K4).config.busWidth = .fourBit ∧ LinesUsable (selected K4).config ∧ EnableIdle (selected K4)
    ∧ lastSet (selected K4).config.pins.rs (selected K4).trace = some false :=
  ⟨by decide +kernel, usable_K4, by unfold EnableIdle; decide +kernel, by decide +kernel⟩

theorem witness_TransferLayerWritesNothing :
    (∃ t, exec .pulseEnable (fresh K4) = .next t) ∧ (∃ t, exec (.writeNibble 3) (fresh K4) = .next t)
    ∧ (∃ t, exec (.writeByte 3) (fresh K4) = .next t) ∧ (∃ t, exec (.send 3 true) (fresh K8) = .next t) :=
  ⟨⟨_, rfl⟩, ⟨_, rfl⟩, ⟨_, rfl⟩, ⟨_, rfl⟩⟩

/-- The guard's two cases: a fault stands; no fault and not `Ready`. -/
theorem witness_GuardRaisesNotReady :
    Instr.hostOp (.print []) = some .print ∧ HostOp.print ≠ .init
    ∧ (faulted K4 .alreadyInitialized).fault ≠ none
    ∧ (fresh K4).fault = none ∧ (fresh K4).life ≠ .ready := by decide +kernel

/-- `Sends` past its guard, under both bus widths. -/
theorem witness_CommandSendsVerbatim : (Open (ready K4) ∧ EnableIdle (ready K4)) ∧ (Open (ready K8) ∧ EnableIdle (ready K8)) :=
  ⟨⟨open_K4, idle_ready K4⟩, ⟨open_K8, idle_ready K8⟩⟩
theorem witness_WriteCharSendsVerbatim : Open (ready K4) ∧ EnableIdle (ready K4) := ⟨open_K4, idle_ready K4⟩
/-- Both pairs of the list, under each bus width. -/
theorem witness_ClearAndHome :
    ((Instr.clear, HostOp.clear, (0x01 : Byte)) ∈ [(Instr.clear, HostOp.clear, 0x01#8), (.home, .home, 0x02)]
      ∧ Open (ready K4) ∧ EnableIdle (ready K4))
    ∧ ((Instr.home, HostOp.home, (0x02 : Byte)) ∈ [(Instr.clear, HostOp.clear, 0x01#8), (.home, .home, 0x02)]
      ∧ Open (ready K8) ∧ EnableIdle (ready K8)) :=
  ⟨⟨by decide, open_K4, idle_ready K4⟩, ⟨by decide, open_K8, idle_ready K8⟩⟩
theorem witness_ScrollOperations : Open (ready K8) ∧ EnableIdle (ready K8) := ⟨open_K8, idle_ready K8⟩
theorem witness_CreateCharWritesGlyph : Open (ready K4) ∧ EnableIdle (ready K4) := ⟨open_K4, idle_ready K4⟩
theorem witness_PrintWritesText : Open (ready K8) ∧ EnableIdle (ready K8) := ⟨open_K8, idle_ready K8⟩

theorem witness_SetCursorSendsAddress :
    Open (ready K4) ∧ EnableIdle (ready K4) ∧ (ready K4).rowOffset = some ⟨0x00, 0x40, 0x10, 0x50⟩ :=
  ⟨open_K4, idle_ready K4, by decide +kernel⟩
theorem witness_DisplayControlOperations :
    Open (ready K4) ∧ EnableIdle (ready K4) ∧ (ready K4).displayControl = some 0x04 := ⟨open_K4, idle_ready K4, rfl⟩
theorem witness_EntryModeOperations :
    Open (ready K8) ∧ EnableIdle (ready K8) ∧ (ready K8).displayMode = some 0x02 := ⟨open_K8, idle_ready K8, rfl⟩

theorem witness_PseudoOperationsExpand :
    Open (ready K4) ∧ (∃ t, exec (.print [0x48, 0x69]) (ready K4) = .next t)
    ∧ (∃ t, exec (.createChar 9 (flat 0x1F)) (ready K4) = .next t)
    ∧ (∃ t, exec .clear (ready K4) = .next t) ∧ (∃ t, exec .home (ready K4) = .next t) :=
  ⟨open_K4, ⟨_, rfl⟩, ⟨_, rfl⟩, ⟨_, rfl⟩, ⟨_, rfl⟩⟩

theorem witness_MaskOperationsRepeat :
    ∃ t u, Instr.display ∈ maskOperations ∧ Open (ready K4) ∧ exec .display (ready K4) = .next t ∧ exec .display t = .next u :=
  ⟨_, _, by decide, open_K4, rfl, rfl⟩

/-- Both sides of C5: bit 0 clear before, and bit 0 set before. -/
theorem witness_AutoscrollPair :
    (∃ t u, Open (ready K4) ∧ (ready K4).displayMode = some 0x02
      ∧ exec .autoscroll (ready K4) = .next t ∧ exec .noAutoscroll t = .next u)
    ∧ (∃ t u, Open (masks K4 0x04 0x03) ∧ (masks K4 0x04 0x03).displayMode = some 0x03
      ∧ exec .autoscroll (masks K4 0x04 0x03) = .next t ∧ exec .noAutoscroll t = .next u) :=
  ⟨⟨_, _, open_K4, rfl, rfl, rfl⟩, ⟨_, _, ⟨rfl, rfl, by decide +kernel⟩, rfl, rfl, rfl⟩⟩

theorem witness_InitCompletes :
    ((fresh K4).fault = none ∧ (fresh K4).life ≠ .ready ∧ valid (fresh K4).config = true)
    ∧ ((fresh K8W).fault = none ∧ (fresh K8W).life ≠ .ready ∧ valid (fresh K8W).config = true) := by decide +kernel

/-- `init` answers a next state under both bus widths. -/
theorem witness_InitLatchSequence :
    (∃ t, (fresh K4).fault = none ∧ (fresh K4).life ≠ .ready ∧ valid (fresh K4).config = true ∧ EnableIdle (fresh K4)
      ∧ exec .init (fresh K4) = .next t)
    ∧ (∃ t, (fresh K8).fault = none ∧ (fresh K8).life ≠ .ready ∧ valid (fresh K8).config = true ∧ EnableIdle (fresh K8)
      ∧ exec .init (fresh K8) = .next t) :=
  ⟨⟨_, rfl, by decide, by decide +kernel, idle_fresh K4, rfl⟩, ⟨_, rfl, by decide, by decide +kernel, idle_fresh K8, rfl⟩⟩
theorem witness_InitTotals :
    ∃ t, (fresh K4).fault = none ∧ (fresh K4).life ≠ .ready ∧ valid (fresh K4).config = true
      ∧ exec .init (fresh K4) = .next t ∧ (fresh K4).config.timing = .default :=
  ⟨_, rfl, by decide, by decide +kernel, rfl, rfl⟩
theorem witness_InitBeginsBySettling :
    ∃ t, (fresh K8).fault = none ∧ (fresh K8).life ≠ .ready ∧ valid (fresh K8).config = true
      ∧ exec .init (fresh K8) = .next t :=
  ⟨_, rfl, by decide, by decide +kernel, rfl⟩
/-- The last data line of each width. -/
theorem witness_LinesAfterInit :
    (∃ t, (fresh K4).fault = none ∧ (fresh K4).life ≠ .ready ∧ valid (fresh K4).config = true
      ∧ exec .init (fresh K4) = .next t ∧ (usedData (fresh K4).config)[3]? = some ⟨5⟩)
    ∧ (usedData (fresh K8).config)[7]? = some ⟨9⟩ :=
  ⟨⟨_, rfl, by decide, by decide +kernel, rfl, by decide +kernel⟩, by decide +kernel⟩

theorem witness_InvalidConfigurationIsReported :
    ∃ t, (fresh { K4 with rows := 5 }).fault = none ∧ (fresh { K4 with rows := 5 }).life ≠ .ready
      ∧ valid (fresh { K4 with rows := 5 }).config = false ∧ exec .init (fresh { K4 with rows := 5 }) = .next t :=
  ⟨_, rfl, by decide, by decide +kernel, rfl⟩
theorem witness_SecondInitIsAFault : (ready K8).fault = none ∧ (ready K8).life = .ready := by decide +kernel

theorem witness_StickyFaultRefuses :
    ∃ t, Instr.hostOp .init = some .init ∧ (faulted K4 (.notReady .command)).fault ≠ none
      ∧ exec .init (faulted K4 (.notReady .command)) = .next t :=
  ⟨_, rfl, by decide, rfl⟩
/-- Every branch of the priority: refused, AlreadyInitialized, InvalidConfiguration, NotReady, `Ok(n)`, `Ok`. -/
theorem witness_OutcomePriority :
    (∃ t, exec .clear (faulted K4 .alreadyInitialized) = .next t) ∧ (∃ t, exec .init (ready K4) = .next t)
    ∧ (∃ t, exec .init (fresh { K4 with cols := 41 }) = .next t) ∧ (∃ t, exec .init (fresh K4) = .next t)
    ∧ (∃ t, exec .clear (fresh K4) = .next t) ∧ (∃ t, exec (.print []) (ready K4) = .next t)
    ∧ (∃ t, exec .clear (ready K4) = .next t) :=
  ⟨⟨_, rfl⟩, ⟨_, rfl⟩, ⟨_, rfl⟩, ⟨_, rfl⟩, ⟨_, rfl⟩, ⟨_, rfl⟩, ⟨_, rfl⟩⟩
theorem witness_BusWidthMisuseIsUnreachable :
    ∃ t, Instr.hostOp .clear = some .clear ∧ exec .clear (faulted K4 (.busWidthMisuse 7)) = .next t
      ∧ t.fault = some (.busWidthMisuse 7) :=
  ⟨_, rfl, rfl, rfl⟩
theorem witness_AbnormalOutcomesArePrecise :
    (∃ t, exec .clear (fresh K4) = .next t ∧ ∃ k, t.result = some (.faulted k))
    ∧ (∃ t, exec .clear (faulted K4 .alreadyInitialized) = .next t ∧ ∃ o, t.result = some (.refused o)) :=
  ⟨⟨_, rfl, _, rfl⟩, ⟨_, rfl, _, rfl⟩⟩

theorem witness_ConfigurationIsImmutable : ∃ t, exec .init (fresh K4) = .next t := ⟨_, rfl⟩
theorem witness_WhoWritesWhat :
    (∃ t, exec .init (fresh K4) = .next t ∧ t.life ≠ (fresh K4).life)
    ∧ (∃ t, exec .cursor (ready K4) = .next t ∧ t.displayControl ≠ (ready K4).displayControl)
    ∧ (∃ t, exec .autoscroll (ready K4) = .next t ∧ t.displayMode ≠ (ready K4).displayMode) :=
  ⟨⟨_, rfl, by decide⟩, ⟨_, rfl, by decide⟩, ⟨_, rfl, by decide⟩⟩
theorem witness_LifecycleTransitions :
    (∃ t, (fresh K4).life ≠ .initializing ∧ exec .init (fresh K4) = .next t ∧ t.life ≠ (fresh K4).life)
    ∧ (∃ t, (ready K4).life = .ready ∧ exec .clear (ready K4) = .next t) :=
  ⟨⟨_, by decide, rfl, by decide⟩, ⟨_, rfl, rfl⟩⟩
theorem witness_EventsAppended :
    (∃ t, exec .init (fresh K4) = .next t) ∧ (∃ t, exec .init (fresh { K4 with rows := 0 }) = .next t) :=
  ⟨⟨_, rfl⟩, ⟨_, rfl⟩⟩
theorem witness_NothingIsReadBack :
    (∃ t, exec .clear (ready K4) = .next t)
    ∧ (∃ f, exec (.writeNibble 0) (fresh { K4 with pins := pinsOf 3 }) = .fault f) := ⟨⟨_, rfl⟩, ⟨_, rfl⟩⟩
theorem witness_EnableEndsLow :
    ∃ t, exec (.writeChar 1) (ready K4) = .next t ∧ EnableIdle (ready K4) ∧ Instr.hostOp (.writeChar 1) ≠ none
      ∧ t.result ≠ some .errInvalidConfiguration :=
  ⟨_, rfl, idle_ready K4, by decide, by decide⟩
theorem witness_MinimumDurations :
    ∃ t, Instr.hostOp (.print [0x41]) = some .print ∧ (ready K8).config.timing = .default
      ∧ exec (.print [0x41]) (ready K8) = .next t ∧ (∃ n, t.result = some (.okCount n)) :=
  ⟨_, rfl, rfl, rfl, _, rfl⟩

/-- The smallest and the largest legal rows of R87's table. -/
theorem witness_FunctionSetBytes : 1 ≤ K4S.rows ∧ 1 ≤ K8W.rows := by decide +kernel
/-- Both ends of the column range. -/
theorem witness_RowTableValues : (1 ≤ 1 ∧ 1 ≤ 40) ∧ (1 ≤ 40 ∧ 40 ≤ 40) := by decide
theorem witness_ConformingRunsTakeTheirTime :
    conforms pulse [.set ⟨1⟩ false, .waited 1, .set ⟨1⟩ true, .waited 3, .set ⟨1⟩ false, .waited 1] = true
    ∧ conforms pulse [.set ⟨1⟩ false, .waited 1, .set ⟨1⟩ true, .waited 0, .set ⟨1⟩ false, .waited 1] = false
    ∧ ([] : List Event).length = ([] : List Observed).length ∧ 1 ≤ 3
    ∧ conforms ([] ++ .dly 1 :: []) ([] ++ .waited 1 :: []) = true := by decide +kernel

/-- A state in `Ready` meets the invariant. -/
theorem ready_inv : Inv (ready K4) :=
  { settled := by decide
    validWhenReady := fun _ => by decide +kernel
    functionWhenReady := fun _ => rfl
    rowsWhenReady := fun _ => rfl
    controlWhenReady := fun _ => ⟨0x04, rfl, by decide⟩
    modeWhenReady := fun _ => ⟨0x02, rfl, by decide⟩
    emptyWhenNotReady := fun h => absurd rfl h
    enableLow := idle_ready K4
    delays := fun _ h => nomatch h
    notReadyFault := fun _ h => nomatch h
    alreadyFault := fun h => nomatch h
    misuseFault := fun _ h => nomatch h }
theorem witness_StepKeepsInvariant : ∃ t, Inv (ready K4) ∧ step (ready K4) = .next t := ⟨_, ready_inv, rfl⟩
/-- The invariant does not look at the queue: a `Ready` state with two lines waiting meets it too. -/
theorem witness_HostProgramsNeverStop :
    Inv (hostLines ["clear()", "print(\"!\")"] (ready K4))
    ∧ HostProgram (hostLines ["clear()", "print(\"!\")"] (ready K4)).pending := by
  refine ⟨?_, ?_⟩
  · obtain ⟨a, b, c, d, e, f, g, h, i, j, k, l⟩ := ready_inv
    exact ⟨a, b, c, d, e, f, g, h, i, j, k, l⟩
  · intro r hr
    simp only [hostLines, List.map_cons, List.map_nil, List.mem_cons, List.not_mem_nil, or_false] at hr
    rcases hr with rfl | rfl
    · exact ⟨rfl, .clear, rfl, rfl⟩
    · exact ⟨rfl, .print [0x21], rfl, rfl⟩
theorem witness_ReadyRequestsSucceed :
    Instr.hostOp (.setCursor 3 7) = some .setCursor ∧ HostOp.setCursor ≠ .init ∧ Open (ready K8)
    ∧ (ready K8).rowOffset ≠ none :=
  ⟨rfl, by decide, open_K8, by decide⟩

/-- A trace with nothing in it, under both bus widths; and one that ends after a whole word. -/
theorem witness_WordsAreFramed :
    (∃ t, (fresh K4).fault = none ∧ (fresh K4).life ≠ .ready ∧ valid (fresh K4).config = true ∧ EnableIdle (fresh K4)
      ∧ frames (fresh K4).config (fresh K4).trace = some [] ∧ exec .init (fresh K4) = .next t)
    ∧ (∃ t, (fresh K8).fault = none ∧ (fresh K8).life ≠ .ready ∧ valid (fresh K8).config = true ∧ EnableIdle (fresh K8)
      ∧ frames (fresh K8).config (fresh K8).trace = some [] ∧ exec .init (fresh K8) = .next t)
    ∧ (∃ t, Instr.hostOp (.print [0x41]) = some .print ∧ HostOp.print ≠ .init ∧ valid (sentOne K4).config = true
      ∧ EnableIdle (sentOne K4) ∧ frames (sentOne K4).config (sentOne K4).trace = some [.word ⟨true, 0x48⟩]
      ∧ exec (.print [0x41]) (sentOne K4) = .next t) := by
  refine ⟨⟨_, rfl, by decide, by decide +kernel, idle_fresh K4, rfl, rfl⟩,
    ⟨_, rfl, by decide, by decide +kernel, idle_fresh K8, rfl, rfl⟩,
    ⟨_, rfl, by decide, by decide +kernel, ?_, by decide +kernel, rfl⟩⟩
  unfold EnableIdle
  decide +kernel

end Sys2Proof.Tests
end

section
/-! PROOFS. The state between requests: who may ask, what no instruction writes, the lifecycle, the trace, the invariant
and the progress of host programs (10_state.md). -/

namespace Sys2Proof.Proofs

open Sys2Proof Sys2Proof.Machine Sys2Proof.Safety

/-! ## One step -/

theorem step_of_idle {s : State} (hp : s.pending = []) : step s = .next s := by
  simp [step, fetch, hp]

theorem step_of_undecodable {s : State} {r : Request} {rest : List Request} {e : DecodeError}
    (hp : s.pending = r :: rest) (hd : decode r.code = .error e) : step s = .refused (.undecodable e) := by
  simp [step, fetch, hp, hd]

theorem step_of_notRequestable {s : State} {r : Request} {rest : List Request} {i : Instr}
    (hp : s.pending = r :: rest) (hd : decode r.code = .ok i) (hw : WellFormed r.caller i = false) :
    step s = .refused (.notRequestable r.caller i) := by
  simp [step, fetch, hp, hd, hw]

theorem step_of_wellFormed {s : State} {r : Request} {rest : List Request} {i : Instr}
    (hp : s.pending = r :: rest) (hd : decode r.code = .ok i) (hw : WellFormed r.caller i = true) :
    step s = exec i { s with pending := rest } := by
  simp [step, fetch, hp, hd, hw]

/-! ## The guard -/

/-- R204: every host request but `init` stands behind the guard of its own operation. -/
theorem exec_eq_guarded {i : Instr} {op : HostOp} (hi : i.hostOp = some op) (hne : op ≠ .init) :
    ∃ body, ∀ s, exec i s = guarded op body s := by
  cases i <;> cases hi
  case init => exact absurd rfl hne
  all_goals exact ⟨_, fun _ => rfl⟩

theorem guarded_before_ready {op : HostOp} {body : State → Host.Outcome State Fault Refusal} {s : State}
    (hf : s.fault = none) (hl : s.life ≠ .ready) : guarded op body s = .next (raise (.notReady op) s) := by
  simp [guarded, hf, hl]

/-- A guarded request answers a next state when its body does past the guard. -/
theorem guarded_answers {op : HostOp} {body : State → Host.Outcome State Fault Refusal} {s : State}
    (h : s.life = .ready → ∃ t, body s = .next t) : ∃ t, guarded op body s = .next t := by
  rcases guarded_cases op body s with ⟨-, hg⟩ | ⟨-, -, hg⟩ | ⟨-, hl, hg⟩
  · exact ⟨_, hg⟩
  · exact ⟨_, hg⟩
  · rw [hg]; exact h hl

/-! ## Progress: a host request on a valid configuration answers a next state -/

/-- On a valid configuration the clamped row is an index of the row table, whatever the table holds (R162, R202). -/
theorem cursorOffset_of_valid {s : State} (hv : valid s.config = true) (row : Byte) :
    ∃ offset, cursorOffset row s = some offset := by
  simp only [valid, Bool.and_eq_true, decide_eq_true_eq] at hv
  obtain ⟨⟨⟨⟨⟨-, hlo, hhi⟩, -⟩, -⟩, -⟩, -⟩ := hv
  have hentry : ∀ r, r < 4 → ∃ o, rowEntry (rowTableOf s) r = some o
    | 0, _ | 1, _ | 2, _ | 3, _ => ⟨_, rfl⟩
  have hrow : (if row.toNat ≥ s.config.rows then s.config.rows - 1 else row.toNat) < 4 := by split <;> omega
  simpa [cursorOffset, clampRow, Nat.ne_of_gt hlo] using hentry _ hrow

theorem answering_send {s : State} (h : busLines s.config.busWidth ≤ s.config.pins.data.length) (r : Result) (v : Byte)
    (d : Bool) : answering r (send v d s) = .next (answer r (emit (sendEvents s.config v d) s)) := by
  rw [send_next h, answering_next]

section
variable {s : State} (hb : s.life = .ready → busLines s.config.busWidth ≤ s.config.pins.data.length)
include hb

theorem sendInstruction_answers (op : HostOp) (v : Byte) : ∃ t, sendInstruction op v s = .next t :=
  guarded_answers fun hl => ⟨_, answering_send (hb hl) ..⟩

theorem sendAndBlock_answers (op : HostOp) (v : Byte) : ∃ t, sendAndBlock op v s = .next t :=
  guarded_answers fun hl => by rw [send_next (hb hl)]; exact ⟨_, rfl⟩

theorem updateControl_answers (op : HostOp) (f : Byte → Byte) : ∃ t, updateControl op f s = .next t :=
  guarded_answers fun hl => ⟨_, answering_send (by exact hb hl) ..⟩

theorem updateMode_answers (op : HostOp) (f : Byte → Byte) : ∃ t, updateMode op f s = .next t :=
  guarded_answers fun hl => ⟨_, answering_send (by exact hb hl) ..⟩

theorem execWriteChar_answers (v : Byte) : ∃ t, execWriteChar v s = .next t :=
  guarded_answers fun hl => ⟨_, answering_send (hb hl) ..⟩

theorem execCreateChar_answers (l : Byte) (g : Glyph) : ∃ t, execCreateChar l g s = .next t :=
  guarded_answers fun hl => by rw [send_next (hb hl), andThen_next, sendAll_next (by exact hb hl)]; exact ⟨_, rfl⟩

theorem execPrint_answers (text : List Byte) : ∃ t, execPrint text s = .next t :=
  guarded_answers fun hl => by rw [sendAll_next (hb hl)]; exact ⟨_, rfl⟩

end

theorem execSetCursor_answers {s : State} (hv : s.life = .ready → valid s.config = true) (col row : Byte) :
    ∃ t, execSetCursor col row s = .next t :=
  guarded_answers fun hl => by
    obtain ⟨offset, ho⟩ := cursorOffset_of_valid (hv hl) row
    simp only [placeCursor, ho]
    exact ⟨_, answering_send (lines_of_valid (hv hl)) ..⟩

theorem execInit_answers (s : State) : ∃ t, execInit s = .next t := by
  rcases execInit_spec s with ⟨-, h⟩ | ⟨-, -, h⟩ | ⟨-, -, -, h⟩ | ⟨-, -, -, h⟩ <;> exact ⟨_, h⟩

/-- R141, R209: every host request answers a next state, where in `Ready` the configuration has passed `Valid`. -/
theorem exec_host_answers {i : Instr} {op : HostOp} {s : State} (hi : i.hostOp = some op)
    (hv : s.life = .ready → valid s.config = true) : ∃ t, exec i s = .next t := by
  have hb (hl : s.life = .ready) := lines_of_valid (hv hl)
  cases i with
  | clearDisplay | returnHome | entryModeSet | displayControl | cursorShift | functionSet | setCgramAddr | setDdramAddr
  | data | nonInstr00 | hsNib3 | hsNib2 | pulseEnable | writeNibble | writeByte | send => cases hi
  | command v => exact sendInstruction_answers hb .command v
  | scrollDisplayLeft | scrollDisplayRight => exact sendInstruction_answers hb ..
  | writeChar v => exact execWriteChar_answers hb v
  | init => exact execInit_answers s
  | clear | home => exact sendAndBlock_answers hb ..
  | setCursor col row => exact execSetCursor_answers hv col row
  | display => exact updateControl_answers hb .display (setFlag · DISPLAYON)
  | noDisplay => exact updateControl_answers hb .noDisplay (clearFlag · DISPLAYON)
  | cursor => exact updateControl_answers hb .cursor (setFlag · CURSORON)
  | noCursor => exact updateControl_answers hb .noCursor (clearFlag · CURSORON)
  | blink => exact updateControl_answers hb .blink (setFlag · BLINKON)
  | noBlink => exact updateControl_answers hb .noBlink (clearFlag · BLINKON)
  | leftToRight => exact updateMode_answers hb .leftToRight (setFlag · ENTRYLEFT)
  | rightToLeft => exact updateMode_answers hb .rightToLeft (clearFlag · ENTRYLEFT)
  | autoscroll => exact updateMode_answers hb .autoscroll (setFlag · ENTRYSHIFTINCREMENT)
  | noAutoscroll => exact updateMode_answers hb .noAutoscroll (clearFlag · ENTRYSHIFTINCREMENT)
  | createChar l g => exact execCreateChar_answers hb l g
  | print text => exact execPrint_answers hb text

/-! ## What an instruction keeps -/

/-- R28, R34: an instruction keeps the lifecycle, the function mask and the row table, or it is an `init` that completes. -/
theorem exec_keeps_or_inits {i : Instr} {s t : State} (h : exec i s = .next t) :
    (t.life = s.life ∧ t.displayFunction = s.displayFunction ∧ t.rowOffset = s.rowOffset) ∨
      (i = .init ∧ s.life ≠ .ready ∧ t = afterInit s) := by
  cases exec_effect h with
  | initialized hi _ hl _ => exact .inr ⟨hi, hl, rfl⟩
  | _ => exact .inl ⟨rfl, rfl, rfl⟩

theorem exec_config {i : Instr} {s t : State} (h : exec i s = .next t) : t.config = s.config := by
  cases exec_effect h <;> rfl

theorem exec_pending {i : Instr} {s t : State} (h : exec i s = .next t) : t.pending = s.pending := by
  cases exec_effect h <;> rfl

theorem exec_displayControl {i : Instr} {s t : State} (h : exec i s = .next t) :
    t.displayControl = s.displayControl ∨ i = .init ∨ i ∈ [.display, .noDisplay, .cursor, .noCursor, .blink, .noBlink] := by
  cases exec_effect h with
  | initialized hi _ _ _ => exact .inr (.inl hi)
  | request op _ _ _ _ es _ _ _ dc dm hdc _ _ => exact hdc.imp id fun hc => .inr hc.1
  | _ => exact .inl rfl

theorem exec_displayMode {i : Instr} {s t : State} (h : exec i s = .next t) :
    t.displayMode = s.displayMode ∨ i = .init ∨ i ∈ [.leftToRight, .rightToLeft, .autoscroll, .noAutoscroll] := by
  cases exec_effect h with
  | initialized hi _ _ _ => exact .inr (.inl hi)
  | request op _ _ _ _ es _ _ _ dc dm _ hdm _ => exact hdm.imp id fun hm => .inr hm.1
  | _ => exact .inl rfl

/-! ## What a transfer and an `init` append -/

theorem transfer_delay {c : Configuration} {es : List Event} (h : Transfer c es) {t : Nat} (ht : Event.dly t ∈ es) :
    1 ≤ t := by
  rcases mem_transfer h ht with ⟨_, _, he⟩ | ⟨_, h1, he⟩ <;> cases he
  exact h1

theorem transfer_cfg_notMem {c : Configuration} {es : List Event} (h : Transfer c es) (l : LineId) :
    Event.cfg l ∉ es := fun hl => by
  rcases mem_transfer h hl with ⟨_, _, he⟩ | ⟨_, _, he⟩ <;> cases he

theorem transfer_fatal_notMem {c : Configuration} {es : List Event} (h : Transfer c es) (k : ErrorKind) :
    Event.fatal k ∉ es := fun hk => by
  rcases mem_transfer h hk with ⟨_, _, he⟩ | ⟨_, _, he⟩ <;> cases he

theorem init_delay {c : Configuration} {t : Nat} (ht : Event.dly t ∈ initEvents c) : 1 ≤ t := by
  rcases mem_initEvents ht with h | ⟨_, _, he⟩ | ⟨_, h1, he⟩
  · have h0 : t = tPower c := by simpa [settleEvents] using h
    simp only [h0, tPower]; omega
  · cases he
  · cases he; exact h1

theorem init_fatal_notMem (c : Configuration) (k : ErrorKind) : Event.fatal k ∉ initEvents c := fun hk => by
  rcases mem_initEvents hk with h | ⟨_, _, he⟩ | ⟨_, _, he⟩
  · simp [settleEvents] at h
  · cases he
  · cases he

/-! ## The invariant

Each operation a next state is built from keeps it; `effect_keeps_inv` puts them together. -/

theorem inv_answer {s : State} (h : Inv s) (r : Result) : Inv (answer r s) := { h with }

theorem inv_dequeue {s : State} (h : Inv s) (rest : List Request) : Inv { s with pending := rest } := { h with }

/-- Events that end with enable low or untouched, each delay a millisecond or more (R110, R215). -/
theorem inv_emit {s : State} (h : Inv s) {es : List Event} (hen : lastSet s.config.pins.en es ≠ some true)
    (hd : ∀ t, Event.dly t ∈ es → 1 ≤ t) : Inv (emit es s) :=
  { h with
    enableLow := by
      have hs : lastSet s.config.pins.en s.trace ≠ some true := h.enableLow
      simp only [EnableIdle, emit_config, emit_trace, lastSet_append]
      cases he : lastSet s.config.pins.en es with
      | none => simpa using hs
      | some b => simpa [he] using hen
    delays := fun t ht => (List.mem_append.mp ht).elim (h.delays t) (hd t) }

theorem inv_transfer {s : State} (h : Inv s) {es : List Event} (he : Transfer s.config es) : Inv (emit es s) :=
  inv_emit h (transfer_enable he) fun _ => transfer_delay he

/-- A fault raised where its kind may stand (R204, R205, R207). -/
theorem inv_raise {s : State} (h : Inv s) {k : FaultKind} (hn : ∀ op, k = .notReady op → s.life ≠ .ready)
    (ha : k = .alreadyInitialized → s.life = .ready) (hm : ∀ v, k = .busWidthMisuse v → s.config.busWidth = .fourBit) :
    Inv (raise k s) :=
  { h with
    notReadyFault := fun op hk => hn op (Option.some.inj hk)
    alreadyFault := fun hk => ha (Option.some.inj hk)
    misuseFault := fun v hk => hm v (Option.some.inj hk) }

/-- R231: the state a completed `init` leaves. -/
theorem inv_afterInit {s : State} (h : Inv s) (hf : s.fault = none) (hv : valid s.config = true) : Inv (afterInit s) :=
  { settled := nofun
    validWhenReady := fun _ => hv
    functionWhenReady := fun _ => rfl
    rowsWhenReady := fun _ => rfl
    controlWhenReady := fun _ => ⟨_, rfl, by decide⟩
    modeWhenReady := fun _ => ⟨_, rfl, by decide⟩
    emptyWhenNotReady := fun hl => absurd rfl hl
    enableLow := by simp [EnableIdle, afterInit, lastSet_init_en]
    delays := fun t ht => (List.mem_append.mp ht).elim (h.delays t) init_delay
    notReadyFault := fun _ hk => by simp [afterInit, hf] at hk
    alreadyFault := fun _ => rfl
    misuseFault := fun _ hk => by simp [afterInit, hf] at hk }

/-- In `Ready` the two masks may take any value in their bits (R30, R31). -/
theorem inv_masks {s : State} (h : Inv s) (hl : s.life = .ready) {dc dm : Option Byte}
    (hdc : ∃ d, dc = some d ∧ d &&& 0xF8#8 = 0#8) (hdm : ∃ m, dm = some m ∧ m &&& 0xFC#8 = 0#8) :
    Inv { s with displayControl := dc, displayMode := dm } :=
  { h with
    controlWhenReady := fun _ => hdc
    modeWhenReady := fun _ => hdm
    emptyWhenNotReady := fun hn => absurd hl hn }

/-- Setting or clearing a flag leaves the bits of `mask` clear when the flag has none of them. -/
theorem flag_keeps_clear {m f mask : Byte} {g : Byte → Byte} (hm : m &&& mask = 0#8) (hf : f &&& mask = 0#8)
    (hg : g = (setFlag · f) ∨ g = (clearFlag · f)) : g m &&& mask = 0#8 := by
  rcases hg with rfl | rfl
  · simp [setFlag, BitVec.and_or_distrib_right, hm, hf]
  · change m &&& ~~~f &&& mask = 0#8
    rw [BitVec.and_assoc, BitVec.and_comm (~~~f), ← BitVec.and_assoc, hm, BitVec.zero_and]

/-- A request that keeps a mask, or sets or clears in it a flag outside `mask`, leaves the bits of `mask` clear. -/
theorem mask_stays_clear {old new : Option Byte} {mask unwritten : Byte} {p : Prop}
    (h : ∃ m, old = some m ∧ m &&& mask = 0#8)
    (hnew : new = old ∨ (p ∧ ∃ f : Byte, ∃ g : Byte → Byte, new = some (g (old.getD unwritten)) ∧ f &&& mask = 0#8 ∧
      (g = (setFlag · f) ∨ g = (clearFlag · f)))) : ∃ m, new = some m ∧ m &&& mask = 0#8 := by
  obtain ⟨m, rfl, hm⟩ := h
  rcases hnew with rfl | ⟨-, f, g, rfl, hf, hg⟩
  · exact ⟨m, rfl, hm⟩
  · exact ⟨g m, rfl, flag_keeps_clear hm hf hg⟩

/-- Whatever an instruction did, the invariant still holds. -/
theorem effect_keeps_inv {i : Instr} {s t : State} (h : Inv s) (he : Effect i s t) : Inv t := by
  cases he with
  | refused op _ _ => exact inv_answer h _
  | notReady op _ _ _ hl => exact inv_raise h (fun _ _ => hl) nofun nofun
  | already _ _ hl => exact inv_raise h nofun (fun _ => hl) nofun
  | invalid _ _ _ _ => exact inv_answer (inv_emit h (by simp [lastSet_cons]) (by simp)) _
  | initialized _ hf _ hv => exact inv_afterInit h hf hv
  | misuse v _ hb => exact inv_raise h nofun nofun (fun _ _ => hb)
  | transfer _ es he => exact inv_transfer h he
  | request op _ _ _ hl es he _ _ dc dm hdc hdm _ =>
    have hmasks := inv_masks h hl (mask_stays_clear (h.controlWhenReady hl) hdc) (mask_stays_clear (h.modeWhenReady hl) hdm)
    exact inv_answer (inv_transfer hmasks he) _

theorem exec_keeps_inv {i : Instr} {s t : State} (h : Inv s) (he : exec i s = .next t) : Inv t :=
  effect_keeps_inv h (exec_effect he)

/-- A step of a host's program runs its first request to a next state with the invariant, off the queue. -/
theorem step_of_hostProgram {s : State} (h : Inv s) (hp : HostProgram s.pending) :
    ∃ t, step s = .next t ∧ Inv t ∧ t.pending = s.pending.tail := by
  cases hq : s.pending with
  | nil => exact ⟨s, step_of_idle hq, h, hq⟩
  | cons r rest =>
    obtain ⟨hr, i, hd, hw⟩ := hp r (hq ▸ List.mem_cons_self)
    obtain ⟨op, hi⟩ := Option.isSome_iff_exists.mp hw
    have hinv := inv_dequeue h rest
    obtain ⟨t, ht⟩ := exec_host_answers hi hinv.validWhenReady
    exact ⟨t, by rw [step_of_wellFormed hq hd (hr ▸ hw), ht], exec_keeps_inv hinv ht, exec_pending ht⟩

theorem hostProgram_tail {rs : List Request} (h : HostProgram rs) : HostProgram rs.tail :=
  fun r hr => h r (List.mem_of_mem_tail hr)

/-! ## Conformance of an observed run -/

theorem carriesOut_cfg (l : LineId) (o : Observed) : carriesOut (.cfg l) o = true ↔ o = .cfg l := by
  cases o <;> simp [carriesOut, @eq_comm _ l]

theorem carriesOut_set (l : LineId) (b : Bool) (o : Observed) : carriesOut (.set l b) o = true ↔ o = .set l b := by
  cases o <;> simp [carriesOut, @eq_comm _ l, @eq_comm _ b]

theorem carriesOut_dly (t : Nat) (o : Observed) : carriesOut (.dly t) o = true ↔ ∃ t', o = .waited t' ∧ t ≤ t' := by
  cases o <;> simp [carriesOut]

theorem carriesOut_fatal (k : ErrorKind) (o : Observed) : carriesOut (.fatal k) o = true ↔ o = .fatal k := by
  cases o <;> simp [carriesOut]

/-- R40: conformance is call by call. -/
theorem conforms_iff_forall₂ (es : List Event) (os : List Observed) :
    conforms es os = true ↔ List.Forall₂ (fun e o => carriesOut e o = true) es os := by
  induction es generalizing os with
  | nil => cases os <;> simp [conforms]
  | cons e es ih => cases os <;> simp [conforms, ih]

theorem conforms_iff_getElem? (es : List Event) (os : List Observed) :
    conforms es os = true ↔ es.length = os.length ∧
      ∀ (k : Nat) (e : Event) (o : Observed), es[k]? = some e → os[k]? = some o → carriesOut e o = true := by
  rw [conforms_iff_forall₂, List.forall₂_iff_get]
  refine and_congr_right fun _ => ⟨fun h k e o he ho => ?_, fun h k hk hk' => ?_⟩
  · obtain ⟨hk, rfl⟩ := List.getElem?_eq_some_iff.mp he
    obtain ⟨hk', rfl⟩ := List.getElem?_eq_some_iff.mp ho
    exact h k hk hk'
  · exact h k _ _ (List.getElem?_eq_getElem hk) (List.getElem?_eq_getElem hk')

theorem conforms_append {a : List Event} {os : List Observed} (h : a.length = os.length) (b : List Event)
    (us : List Observed) : conforms (a ++ b) (os ++ us) = (conforms a os && conforms b us) := by
  induction a generalizing os with
  | nil => cases os with
    | nil => simp [conforms]
    | cons o os => cases h
  | cons e a ih => cases os with
    | nil => cases h
    | cons o os => simp [conforms, ih (Nat.succ.inj h), Bool.and_assoc]

/-- The call of an event, a delay lasting its bound and no longer. -/
def exactCall : Event → Observed
  | .cfg l => .cfg l
  | .set l b => .set l b
  | .dly t => .waited t
  | .fatal k => .fatal k

theorem carriesOut_exactCall (e : Event) : carriesOut e (exactCall e) = true := by
  cases e <;> simp [exactCall, carriesOut]

theorem conforms_exactCalls (es : List Event) : conforms es (es.map exactCall) = true := by
  induction es with
  | nil => rfl
  | cons e es ih => simp [conforms, carriesOut_exactCall, ih]

theorem minDuration_le_timeWaited_of_carriesOut {e : Event} {o : Observed} (h : carriesOut e o = true) :
    minDuration [e] ≤ timeWaited [o] := by
  cases e with
  | dly t => obtain ⟨t', rfl, ht⟩ := (carriesOut_dly t o).mp h; exact ht
  | cfg l | set l b | fatal k => exact Nat.zero_le _

theorem timeWaited_cons (o : Observed) (os : List Observed) : timeWaited (o :: os) = timeWaited [o] + timeWaited os := by
  cases o <;> simp [timeWaited]

/-- R250: no delay of a conforming run is shorter than its bound, so neither is the sum. -/
theorem minDuration_le_timeWaited {es : List Event} {os : List Observed} (h : conforms es os = true) :
    minDuration es ≤ timeWaited os := by
  rw [conforms_iff_forall₂] at h
  induction h with
  | nil => rfl
  | cons heo _ ih =>
    rw [minDuration_cons, timeWaited_cons]
    exact Nat.add_le_add (minDuration_le_timeWaited_of_carriesOut heo) ih

/-! ## The obligations -/

/-- Settles O56: what runs first runs without its request, and every effect keeps the invariant. -/
theorem stepKeepsInvariant : Obligations.StepKeepsInvariant := by
  intro s t h hst
  rcases Laws.step_cases s with ⟨-, hs⟩ | ⟨_, _, _, -, -, hs⟩ | ⟨_, _, _, -, -, -, hs⟩ | ⟨_, rest, _, -, -, -, hs⟩ <;>
    rw [hs] at hst
  · cases hst; exact h
  · cases hst
  · cases hst
  · exact exec_keeps_inv (inv_dequeue h rest) hst

/-- Settles O57, by induction on the number of steps. -/
theorem hostProgramsNeverStop : Obligations.HostProgramsNeverStop := by
  intro k
  induction k with
  | zero => exact fun s h _ => ⟨s, rfl, h, rfl⟩
  | succ k ih =>
    intro s h hp
    obtain ⟨u, hu, hinv, hq⟩ := step_of_hostProgram h hp
    obtain ⟨t, ht, htinv, hdrop⟩ := ih u hinv (hq ▸ hostProgram_tail hp)
    exact ⟨t, by rw [Laws.core_run_next hu, ht], htinv, by rw [hdrop, hq, List.drop_tail]⟩

/-- Settles O8: the operations by cases on the instruction, the fault by the guard each but `init` stands behind. -/
theorem hostRequestsAreExactlyThese : Obligations.HostRequestsAreExactlyThese := by
  refine ⟨fun i => ?_, fun i op s hi hne hf hl => ?_⟩
  · cases i <;> simp [WellFormed, Instr.hostOp]
  · obtain ⟨body, hbody⟩ := exec_eq_guarded hi hne
    rw [hbody, guarded_before_ready hf hl, raise]

/-- Settles O41. -/
theorem configurationIsImmutable : Obligations.ConfigurationIsImmutable := fun _ _ _ h => exec_config h

/-- Settles O42. -/
theorem whoWritesWhat : Obligations.WhoWritesWhat := by
  intro i s t h
  have hdc := exec_displayControl h
  have hdm := exec_displayMode h
  rcases exec_keeps_or_inits h with ⟨hlife, hfn, hrow⟩ | ⟨hi, -, -⟩
  · exact ⟨absurd hlife, absurd hfn, absurd hrow, hdc.resolve_left, hdm.resolve_left, exec_pending h⟩
  · exact ⟨fun _ => hi, fun _ => hi, fun _ => hi, fun _ => .inl hi, fun _ => .inl hi, exec_pending h⟩

/-- Settles O43. -/
theorem lifecycleTransitions : Obligations.LifecycleTransitions := by
  intro i s t hs h
  rcases exec_keeps_or_inits h with ⟨hlife, -, -⟩ | ⟨hi, hl, rfl⟩
  · exact ⟨hlife ▸ hs, hlife.trans, absurd hlife⟩
  · have hun : s.life = .uninitialized := by
      cases hc : s.life with
      | uninitialized => rfl
      | initializing => exact absurd hc hs
      | ready => exact absurd hc hl
    exact ⟨nofun, fun _ => rfl, fun _ => ⟨hun, rfl, hi, rfl⟩⟩

/-- Settles O44, by the effects: no event, the one report, `init`'s events, or a transfer's. -/
theorem eventsAppended : Obligations.EventsAppended := by
  intro i s t h
  cases exec_effect h with
  | invalid hi _ _ hv => exact ⟨_, rfl, by simp, by simp, fun _ _ => ⟨hi, rfl, hv⟩⟩
  | initialized hi _ _ _ =>
    exact ⟨_, rfl, fun _ => init_delay, fun _ _ => ⟨hi, rfl⟩, fun k hk => absurd hk (init_fatal_notMem _ k)⟩
  | transfer _ es he | request _ _ _ _ _ es he =>
    exact ⟨es, rfl, fun _ => transfer_delay he, fun l hl => absurd hl (transfer_cfg_notMem he l),
      fun k hk => absurd hk (transfer_fatal_notMem he k)⟩
  | _ => exact ⟨[], (List.append_nil _).symm, by simp, by simp, by simp⟩

/-- Settles O53. -/
theorem conformingRunsTakeTheirTime : Obligations.ConformingRunsTakeTheirTime := by
  refine ⟨fun es os => ?_, fun es => ⟨_, conforms_exactCalls es⟩, fun _ _ => minDuration_le_timeWaited,
    fun a b t t' os us hlen ht h => ?_⟩
  · refine (conforms_iff_getElem? es os).trans <| and_congr_right fun _ =>
      forall₃_congr fun k e o => imp_congr_right fun _ => imp_congr_right fun _ => ?_
    cases e with
    | cfg l => exact carriesOut_cfg l o
    | set l b => exact carriesOut_set l b o
    | dly t => exact carriesOut_dly t o
    | fatal r => exact carriesOut_fatal r o
  · rw [conforms_append hlen] at h ⊢
    simp only [conforms, carriesOut, Bool.and_eq_true, decide_eq_true_eq] at h ⊢
    exact ⟨h.1, ht, h.2.2⟩

/-- Settles O6. -/
theorem stepRunsFirstRequest : Obligations.StepRunsFirstRequest := fun _ _ _ _ => step_of_wellFormed

/-- Settles O7. -/
theorem stepWithoutAnInstruction : Obligations.StepWithoutAnInstruction := fun _ =>
  ⟨step_of_idle, fun _ _ _ => step_of_undecodable, fun _ _ _ => step_of_notRequestable⟩

/-- Settles O51: up to 40 columns no entry wraps. -/
theorem rowTableValues : Obligations.RowTableValues := by
  intro cols _ hhi
  have h2 : (rowTable cols).r2.toNat = cols := by simp only [rowTable, BitVec.toNat_ofNat]; omega
  have h3 : (rowTable cols).r3.toNat = 0x40 + cols := by simp only [rowTable, BitVec.toNat_ofNat]; omega
  exact ⟨⟨rfl, rfl, h2, h3⟩, by omega⟩

end Sys2Proof.Proofs
end

section
/-! PROOFS. The addresses the bytes of setCursor and createChar name (20_memory.md). -/

namespace Sys2Proof.Proofs

open Sys2Proof Sys2Proof.Machine

/-! ## The address bytes -/

/-- R63, D12: the sum is taken whole, and the low seven bits outlive the reduction mod 256. -/
theorem cursorByte_toNat_mod (col offset : Byte) :
    (cursorByte col offset).toNat % 128 = (col.toNat + offset.toNat) % 128 :=
  calc (cursorByte col offset).toNat % 128
    _ = (2 ^ 7 ||| (col.toNat + offset.toNat)) % 2 ^ 8 % 2 ^ 7 := rfl
    _ = (2 ^ 7 ||| (col.toNat + offset.toNat)) % 2 ^ 7 := Nat.mod_mod_of_dvd _ (by decide)
    _ = (col.toNat + offset.toNat) % 2 ^ 7 := by rw [Nat.or_mod_two_pow, Nat.mod_self, Nat.zero_or]

/-- R63, R88: a carry into bit 7 is absorbed, for the opcode bit is joined by `|||`. -/
theorem cursorByte_bit7 (col offset : Byte) : (cursorByte col offset).getLsbD 7 = true := by
  have hop : SETDDRAMADDR.toNat.testBit 7 = true := by decide
  rw [cursorByte, BitVec.getLsbD_ofNat, Nat.testBit_or, hop]
  rfl

/-- R62: three bits of the location, eight addresses a slot; at most 0x38, so the shift loses nothing. -/
theorem slotStart_toNat (location : Byte) : ((location &&& 0x07#8) <<< 3).toNat = 8 * (location.toNat % 8) := by
  have hmask : (location &&& 0x07#8).toNat = location.toNat % 8 := Nat.and_two_pow_sub_one_eq_mod location.toNat 3
  rw [BitVec.toNat_shiftLeft, hmask, Nat.shiftLeft_eq]
  omega

/-- R62, R89: the slot's start lies below the opcode bit, so joining them by `|||` is adding them. -/
theorem glyphAddressByte_toNat (location : Byte) :
    (glyphAddressByte location).toNat = 0x40 + 8 * (location.toNat % 8) := by
  have hlt : 8 * (location.toNat % 8) < 2 ^ 6 := by omega
  rw [glyphAddressByte, BitVec.toNat_or, slotStart_toNat]
  exact (Nat.two_pow_add_eq_or_of_lt hlt 1).symm

/-! ## The obligations -/

/-- Settles O49. -/
theorem cursorByteAddress : Obligations.CursorByteAddress := fun col offset =>
  ⟨cursorByte_toNat_mod col offset, cursorByte_bit7 col offset⟩

/-- Settles O50. -/
theorem glyphAddressIsASlot : Obligations.GlyphAddressIsASlot := glyphAddressByte_toNat

end Sys2Proof.Proofs
end

section
/-! PROOFS. Written forms (30_encoding.md): bus words and the row each stands in, lines read back as they were written, the
transfers of bus words and nibbles, the operations that expand into others, and the words and frames of a trace. -/

namespace Sys2Proof.Proofs

open Sys2Proof Sys2Proof.Machine Sys2Proof.Safety

/-! ## Bus words -/

/-- R81, R90, R95: the ten patterns are told apart by their leading bits, and each operand is read where it was written. -/
theorem decodeBus9_of_encode {i : Instr} {w : BitVec 9} (h : encode i = .bus9 w) : decodeBus9 w = i := by
  cases i <;> cases h
  case clearDisplay | nonInstr00 => decide
  case returnHome x => revert x; decide
  case entryModeSet left increment => revert left increment; decide
  case displayControl d c b => revert d c b; decide
  case cursorShift m r x => revert m r x; decide
  case functionSet l n f x => revert l n f x; decide
  case setCgramAddr a => revert a; decide
  case setDdramAddr a => revert a; decide
  case data d => revert d; decide

theorem decodeNib4_of_encode {i : Instr} {w : BitVec 5} (h : encode i = .nib4 w) : decodeNib4 w = .ok i := by
  cases i <;> cases h <;> decide

theorem size_eq_succ_iff {n k : Nat} : n.size = k + 1 ↔ n / 2 ^ k = 1 := by
  have hp : 0 < 2 ^ k := by positivity
  rw [le_antisymm_iff, Nat.size_le, Nat.succ_le_iff, Nat.lt_size, Nat.div_eq_iff hp, Nat.pow_succ]
  omega

/-- Under the mask of its bits from `k` up a word is `2 ^ k` when bit `k` is its most significant 1 bit. -/
theorem and_mask_iff_size {n k : Nat} (hk : k < n) (w : BitVec n) :
    w &&& (BitVec.allOnes n <<< k) = BitVec.twoPow n k ↔ w.toNat.size = k + 1 := by
  have hp : 0 < 2 ^ k := by positivity
  have hle : w.toNat / 2 ^ k * 2 ^ k < 2 ^ n := (Nat.div_mul_le_self ..).trans_lt w.isLt
  rw [size_eq_succ_iff, ← BitVec.shiftLeft_ushiftRight, ← BitVec.toNat_inj, BitVec.toNat_twoPow_of_lt hk,
    BitVec.toNat_shiftLeft, BitVec.toNat_ushiftRight, Nat.shiftRight_eq_div_pow, Nat.shiftLeft_eq, Nat.mod_eq_of_lt hle]
  exact Nat.mul_eq_right hp.ne'

/-- The row of R81's table an instruction's word stands in: how many bits that word has from its most significant 1 bit
down. -/
def busRow : Instr → Option Nat
  | .nonInstr00 => some 0
  | .clearDisplay => some 1
  | .returnHome _ => some 2
  | .entryModeSet _ _ => some 3
  | .displayControl _ _ _ => some 4
  | .cursorShift _ _ _ => some 5
  | .functionSet _ _ _ _ => some 6
  | .setCgramAddr _ => some 7
  | .setDdramAddr _ => some 8
  | .data _ => some 9
  | _ => none

theorem getLsbD_of_size {n k : Nat} {w : BitVec n} (h : w.toNat.size = k + 1) : w.getLsbD k = true := by
  rw [BitVec.getLsbD, Nat.testBit_eq_decide_div_mod_eq, size_eq_succ_iff.mp h]
  rfl

theorem getLsbD_of_size_le {n j : Nat} {w : BitVec n} (h : w.toNat.size ≤ j) : w.getLsbD j = false :=
  Nat.testBit_lt_two_pow (Nat.size_le.mp h)

/-- R81, R90, R95: the row of a word is given by its most significant 1 bit. -/
theorem busRow_decodeBus9 (w : BitVec 9) : busRow (decodeBus9 w) = some w.toNat.size := by
  have hle : w.toNat.size ≤ 9 := Nat.size_le.mpr w.isLt
  have hlow (j : Nat) (hj : w.toNat.size ≤ j) : w.getLsbD j = false := getLsbD_of_size_le hj
  have htop (k : Nat) (hk : w.toNat.size = k + 1) : w.getLsbD k = true := getLsbD_of_size hk
  generalize w.toNat.size = m at *
  match m, hle with
  | 0, _ | 1, _ | 2, _ | 3, _ | 4, _ | 5, _ | 6, _ | 7, _ | 8, _ | 9, _ =>
    simp only [decodeBus9, htop, hlow, Nat.reduceLeDiff, Nat.reduceAdd]
    rfl

/-- So the words of a row are those that meet its mask and match. -/
theorem busRow_eq_iff_mask {k : Nat} (hk : k < 9) (w : BitVec 9) :
    busRow (decodeBus9 w) = some (k + 1) ↔ w &&& (BitVec.allOnes 9 <<< k) = BitVec.twoPow 9 k := by
  rw [and_mask_iff_size hk, busRow_decodeBus9, Option.some.injEq]

theorem busRow_eq_zero_iff_mask (w : BitVec 9) : busRow (decodeBus9 w) = some 0 ↔ w &&& 0x1FF#9 = 0x000#9 := by
  have hmask : w &&& 0x1FF#9 = w := BitVec.and_allOnes
  rw [busRow_decodeBus9, Option.some.injEq, Nat.size_eq_zero, hmask, ← BitVec.toNat_inj]
  rfl

/-! ## Lines of a program -/

/-- A call reads as its name on the parts its arguments read as. -/
theorem decodeLine_callLine (n : CallName) (args : List (List Byte)) {toks : List Token}
    (h : lexFrom .gap (joinArgs args ++ [0x29]) = .ok toks) : decodeLine (callLine n args) = operands n toks := by
  rw [← Laws.decodeLine_call n h]
  simp [callLine]

theorem lex_rparen : lexFrom .gap [0x29#8] = .ok [.rparen] := by decide

/-- A number and the end of the line. -/
theorem lex_number_end (v : Byte) : lexFrom .gap (renderByte v ++ [0x29#8]) = .ok [.word (renderByte v), .rparen] :=
  Laws.lex_number v (by decide) lex_rparen

/-- A number, a comma and a space before what follows. -/
theorem lex_number_comma (v : Byte) {rest : List Byte} {toks : List Token} (h : lexFrom .gap rest = .ok toks) :
    lexFrom .gap (renderByte v ++ 0x2C#8 :: 0x20#8 :: rest) = .ok (.word (renderByte v) :: .comma :: toks) :=
  Laws.lex_number v (by decide) (Laws.lex_mark (by decide) (Laws.lex_space h))

/-- A bracketed list as the last argument. -/
theorem lex_list (bs : List Byte) :
    lexFrom .gap (renderList bs ++ [0x29#8]) = .ok (.lbracket :: Laws.itemTokens bs) := by
  have h := Laws.lex_mark (c := 0x5B#8) (t := .lbracket) (by decide) (Laws.lex_items bs)
  simpa [renderList] using h

section
variable {n : CallName}

theorem decode_noOperands {i : Instr} (hn : ∀ toks, operands n toks = noOperands toks i) :
    decodeLine (callLine n []) = .ok i := by
  rw [decodeLine_callLine n [] lex_rparen, hn]; rfl

theorem decode_oneByte {f : Byte → Instr} (hn : ∀ toks, operands n toks = oneByte toks f) (v : Byte) :
    decodeLine (callLine n [renderByte v]) = .ok (f v) := by
  rw [decodeLine_callLine n [renderByte v] (lex_number_end v), hn]
  simp [oneByte, Laws.byteOf_renderByte]

theorem decode_twoBytes {f : Byte → Byte → Instr} (hn : ∀ toks, operands n toks = twoBytes toks f) (v w : Byte) :
    decodeLine (callLine n [renderByte v, renderByte w]) = .ok (f v w) := by
  rw [decodeLine_callLine n _ (by simpa [joinArgs] using lex_number_comma v (lex_number_end w)), hn]
  simp [twoBytes, Laws.byteOf_renderByte]

theorem decode_byteAndBool {f : Byte → Bool → Instr} (hn : ∀ toks, operands n toks = byteAndBool toks f) (v : Byte)
    (d : Bool) : decodeLine (callLine n [renderByte v, renderBool d]) = .ok (f v d) := by
  have hd : lexFrom .gap (renderBool d ++ [0x29#8]) = .ok [.word (renderBool d), .rparen] := by cases d <;> decide
  rw [decodeLine_callLine n _ (by simpa [joinArgs] using lex_number_comma v hd), hn]
  simp [byteAndBool, Laws.byteOf_renderByte, Laws.boolOf_renderBool]

end

theorem glyphOf_rows (g : Glyph) : glyphOf g.rows = .ok g := rfl

theorem decode_createChar (l : Byte) (g : Glyph) :
    decodeLine (callLine (.host .createChar) [renderByte l, renderList g.rows]) = .ok (.createChar l g) := by
  rw [decodeLine_callLine _ _ (by simpa [joinArgs] using lex_number_comma l (lex_list g.rows))]
  simp [operands, glyphOperands, Laws.byteOf_renderByte, Laws.byteItems_itemTokens, glyphOf_rows]

/-- A text reads back from either of its two forms: the quoted string, or the list for bytes no string can hold (log entry
23). -/
theorem decode_print (t : List Byte) : decodeLine (callLine (.host .print) [renderText t]) = .ok (.print t) := by
  by_cases ht : t.all isTextChar = true
  · have hlex : lexFrom .gap (renderText t ++ [0x29#8]) = .ok [.text t, .rparen] := by
      simpa [renderText, ht] using Laws.lex_text ht lex_rparen
    rw [decodeLine_callLine _ [renderText t] hlex]
    rfl
  · have hlex : lexFrom .gap (renderText t ++ [0x29#8]) = .ok (.lbracket :: Laws.itemTokens t) := by
      simpa [renderText, ht] using lex_list t
    rw [decodeLine_callLine _ [renderText t] hlex]
    simp [operands, textOperand, Laws.byteItems_itemTokens]

/-- R97: a line the encoder writes reads as its instruction. -/
theorem decodeLine_of_encode {i : Instr} {line : List Byte} (h : encode i = .call line) : decodeLine line = .ok i := by
  cases i with
  | clearDisplay | returnHome | entryModeSet | displayControl | cursorShift | functionSet | setCgramAddr | setDdramAddr
  | data | nonInstr00 | hsNib3 | hsNib2 => cases h
  | pulseEnable | init | clear | home | display | noDisplay | cursor | noCursor | blink | noBlink | scrollDisplayLeft
  | scrollDisplayRight | leftToRight | rightToLeft | autoscroll | noAutoscroll =>
    cases h; exact decode_noOperands fun _ => rfl
  | writeNibble v | writeByte v | command v | writeChar v => cases h; exact decode_oneByte (fun _ => rfl) v
  | send v d => cases h; exact decode_byteAndBool (fun _ => rfl) v d
  | setCursor col row => cases h; exact decode_twoBytes (fun _ => rfl) col row
  | createChar l g => cases h; exact decode_createChar l g
  | print t => cases h; exact decode_print t

/-! ## The block's own transfers -/

theorem bits_rs (b : BusWord) : b.bits.getLsbD 8 = b.rs := by
  obtain ⟨rs, d⟩ := b
  revert rs d; decide

theorem bits_d (b : BusWord) : b.bits.extractLsb' 0 8 = b.d := BitVec.extractLsb'_append_eq_right

/-- An instruction that sends the word it is written as. -/
theorem exec_of_bits {i : Instr} {s : State} {w : BitVec 9} {v : Byte} {d : Bool} (hi : exec i s = send v d s)
    (hw : w = BusWord.bits ⟨d, v⟩) : exec i s = send (w.extractLsb' 0 8) (w.getLsbD 8) s := by
  rw [hi, hw, bits_d, bits_rs]

/-- R80, R81: each bus-word row sends the word its encoding writes (log entry 20). -/
theorem exec_of_encode_bus9 {i : Instr} {w : BitVec 9} (h : encode i = .bus9 w) (s : State) :
    exec i s = send (w.extractLsb' 0 8) (w.getLsbD 8) s := by
  cases i <;> cases h
  case clearDisplay | nonInstr00 | data => exact exec_of_bits rfl rfl
  case returnHome x => exact exec_of_bits rfl (by revert x; decide)
  case entryModeSet left increment => exact exec_of_bits rfl (by revert left increment; decide)
  case displayControl d c b => exact exec_of_bits rfl (by revert d c b; decide)
  case cursorShift m r x => exact exec_of_bits rfl (by revert m r x; decide)
  case functionSet l n f x => exact exec_of_bits rfl (by revert l n f x; decide)
  case setCgramAddr a => exact exec_of_bits rfl (by revert a; decide)
  case setDdramAddr a => exact exec_of_bits rfl (by revert a; decide)

theorem drives_latch_other {c : Configuration} {l : LineId} {w : Nat} (he : l ≠ c.pins.en)
    (hd : l ∉ c.pins.data.take w) (v : Byte) : ∀ e ∈ latchEvents c w v, drives l e = none := fun e h =>
  (List.mem_append.mp h).elim (drives_driveFrom hd v 0 e) (drives_pulse_other he e)

/-- R111, R136: a bare nibble under FourBit, register-select low. -/
theorem writeNibble_transfers {s : State} (hb : s.config.busWidth = .fourBit) (hu : LinesUsable s.config)
    (he : EnableIdle s) (hrs : lastSet s.config.pins.rs s.trace = some false) (v : Byte) :
    ∃ es, writeNibble v s = .next { s with trace := s.trace ++ es }
      ∧ latchesFrom s.config s.trace es = [⟨false, v &&& 0x0F#8⟩] ∧ es.length = 10
      ∧ ∀ b, Event.set s.config.pins.rs b ∉ es := by
  obtain ⟨hre, hrd, -, -, -⟩ := linesUsable_facts hu
  have hlat := latchesFrom_latch hu v s.trace he
  have hlines := hu.1
  simp only [usedData, hb, busLines] at hlat hrd hlines
  refine ⟨latchEvents s.config 4 v, ?_, ?_, length_latch hlines v, fun b hmem => ?_⟩
  · rw [writeNibble_spec, if_neg (Nat.not_lt.mpr hlines)]; rfl
  · rw [hlat, level, hrs]; rfl
  · simpa using drives_latch_other hre hrd v _ hmem

/-! ## Expansions -/

/-- What a guarded request can do, on an open state: what its body does. -/
theorem past_guard {op : HostOp} {s t : State} {p : Prop} (h : Open s)
    (hc : (s.fault ≠ none ∧ t = refuse op s) ∨ (s.fault = none ∧ s.life ≠ .ready ∧ t = raise (.notReady op) s) ∨
      (s.fault = none ∧ s.life = .ready ∧ p)) : p := by
  obtain ⟨hf, hl, -⟩ := h
  rcases hc with ⟨hf', -⟩ | ⟨-, hl', -⟩ | ⟨-, -, hp⟩
  · exact absurd hf hf'
  · exact absurd hl hl'
  · exact hp

theorem exec_writeChar_next {s : State} (h : Open s) (v : Byte) :
    exec (.writeChar v) s = .next (answer .ok (emit (sendEvents s.config v true) s)) := by
  obtain ⟨hf, hl, hv⟩ := h
  rw [exec, execWriteChar, guarded_open _ _ hf hl, answering_send (lines_of_valid hv)]

theorem exec_command_next {s : State} (h : Open s) (v : Byte) :
    exec (.command v) s = .next (answer .ok (emit (sendEvents s.config v false) s)) := by
  obtain ⟨hf, hl, hv⟩ := h
  rw [exec, execCommand, guarded_open _ _ hf hl, answering_send (lines_of_valid hv)]

/-- `writeChar`s in order send their values in order. After an answer `Ok` they leave that answer. -/
theorem runInstrs_writeChars {s : State} (h : Open s) (vs : List Byte) :
    runInstrs (vs.map .writeChar) (answer .ok s) = .next (answer .ok (emit (sendAllEvents s.config true vs) s)) := by
  induction vs generalizing s with
  | nil => simp [runInstrs, sendAllEvents]
  | cons v vs ih =>
    have hstep : exec (.writeChar v) (answer .ok s) = .next (answer .ok (emit (sendEvents s.config v true) s)) :=
      exec_writeChar_next (s := answer .ok s) h v
    rw [List.map_cons, runInstrs, hstep, andThen_next, ih (s := emit _ s) h]
    simp [sendAllEvents]

theorem runInstrs_writeChars_cons {s : State} (h : Open s) (v : Byte) (vs : List Byte) :
    runInstrs ((v :: vs).map .writeChar) s = .next (answer .ok (emit (sendAllEvents s.config true (v :: vs)) s)) := by
  rw [List.map_cons, runInstrs, exec_writeChar_next h, andThen_next, runInstrs_writeChars (s := emit _ s) h]
  simp [sendAllEvents]

theorem execPrint_expands {s t : State} (h : Open s) {text : List Byte} (ht : exec (.print text) s = .next t) :
    ∃ u, runInstrs (text.map .writeChar) s = .next u ∧ t = { u with result := t.result } := by
  obtain rfl := past_guard h (execPrint_eq_next ht)
  cases text with
  | nil => exact ⟨s, rfl, by rw [sendAllEvents, List.flatMap_nil, emit_nil]; rfl⟩
  | cons v vs => exact ⟨_, runInstrs_writeChars_cons h v vs, rfl⟩

theorem execCreateChar_expands {s t : State} (h : Open s) {l : Byte} {g : Glyph}
    (ht : exec (.createChar l g) s = .next t) :
    runInstrs (.command (glyphAddressByte l) :: g.rows.map .writeChar) s = .next t := by
  obtain rfl := past_guard h (execCreateChar_eq_next ht)
  rw [runInstrs, exec_command_next h, andThen_next, runInstrs_writeChars (s := emit _ s) h, emit_emit, emit_config]

/-- R160, R161: `clear` and `home` are the `command` of their byte and one more event. -/
theorem sendAndBlock_expands {s t : State} (h : Open s) {op : HostOp} {v : Byte} (ht : sendAndBlock op v s = .next t) :
    ∃ u, exec (.command v) s = .next u ∧ t = { u with trace := u.trace ++ [.dly (tClear s.config)] } := by
  obtain rfl := past_guard h (sendAndBlock_eq_next ht)
  exact ⟨_, exec_command_next h v, by rw [← emit_emit]; rfl⟩

/-! ## Words and frames -/

theorem wordsLatches_cons (b : BusWidth) (w : BusWord) (ws : List BusWord) :
    wordsLatches b (w :: ws) = wordLatches b w ++ wordsLatches b ws := rfl

/-- R64: each pair of nibbles, the high one first, is its byte again. -/
theorem pairLatches_wordsLatches (ws : List BusWord) : pairLatches (wordsLatches .fourBit ws) = some ws := by
  induction ws with
  | nil => rfl
  | cons w ws ih => simp [wordsLatches_cons, wordLatches, pairLatches, ih, nibbles_byte]

/-- R92: a trace that ends where a word may begin, its frames so far `fs`, with enable not left high. -/
def AtBoundary (c : Configuration) (a : List Event) (fs : List Frame) : Prop :=
  frames c a = some fs ∧ lastSet c.pins.en a ≠ some true

theorem enable_stays_idle {en : LineId} {a b : List Event} (ha : lastSet en a ≠ some true)
    (hb : lastSet en b ≠ some true) : lastSet en (a ++ b) ≠ some true := by
  rw [lastSet_append]
  cases h : lastSet en b with
  | none => exact ha
  | some v => rw [h] at hb; exact hb

theorem enable_idle_words (c : Configuration) (ws : List BusWord) (waits : List Nat) :
    lastSet c.pins.en (ws.flatMap (wordEvents c) ++ waits.map .dly) ≠ some true := by
  induction ws with
  | nil => rw [lastSet_eq_none (by simp)]; nofun
  | cons w ws ih =>
    have hw : lastSet c.pins.en (wordEvents c w) = some false := lastSet_word_en c w []
    rw [List.flatMap_cons, List.append_assoc]
    exact enable_stays_idle (by rw [hw]; nofun) ih

theorem marksFrom_wait (c : Configuration) (a : List Event) (t : Nat) (es : List Event) :
    marksFrom c a (.dly t :: es) = marksFrom c (a ++ [.dly t]) es := by
  simp [marksFrom, isFalling]

theorem atBoundary_wait {c : Configuration} {a : List Event} {fs : List Frame} (h : AtBoundary c a fs) (t : Nat) :
    AtBoundary c (a ++ [.dly t]) fs := by
  have hmark : marksFrom c a [.dly t] = [] := marksFrom_wait c a t []
  refine ⟨?_, enable_stays_idle h.2 (by simp [lastSet_cons])⟩
  simpa using frames_append (gs := []) h.1 (by rw [hmark]; rfl)

section
variable {c : Configuration} (hu : LinesUsable c) {a : List Event} {fs : List Frame} (h : AtBoundary c a fs)
include hu h

/-- Whole words, and waits after them, lead from boundary to boundary. -/
theorem atBoundary_words (ws : List BusWord) (waits : List Nat) :
    AtBoundary c (a ++ (ws.flatMap (wordEvents c) ++ waits.map .dly)) (fs ++ ws.map .word) :=
  ⟨frames_words hu h.1 h.2 ws waits, enable_stays_idle h.2 (enable_idle_words c ws waits)⟩

theorem atBoundary_send (v : Byte) (d : Bool) : AtBoundary c (a ++ sendEvents c v d) (fs ++ [.word ⟨d, v⟩]) := by
  simpa [sendEvents_eq_word] using atBoundary_words hu h [⟨d, v⟩] []

/-- R139, R140: the words after the handshake. -/
theorem atBoundary_finish : AtBoundary c (a ++ finishEvents c)
    (fs ++ [.word ⟨false, functionByte c⟩, .word ⟨false, 0x0C⟩, .word ⟨false, 0x01⟩, .word ⟨false, 0x06⟩]) := by
  have hf := atBoundary_send hu h (functionByte c) false
  have hc := atBoundary_wait (atBoundary_send hu (atBoundary_send hu hf 0x0C false) 0x01 false) (tClear c)
  simpa [finishEvents] using atBoundary_send hu hc 0x06 false

end

theorem lastSet_settle {c : Configuration} (hu : LinesUsable c) (a : List Event) :
    lastSet c.pins.en (a ++ settleEvents c) = some false ∧ lastSet c.pins.rs (a ++ settleEvents c) = some false := by
  obtain ⟨hre, -, -, -, -⟩ := linesUsable_facts hu
  simp [settleEvents, lastSet_append, lastSet_cons, drives_set_other hre.symm]

theorem cfg_notMem_latch (c : Configuration) (w : Nat) (v : Byte) (l : LineId) : Event.cfg l ∉ latchEvents c w v :=
  transfer_cfg_notMem (.latch w v) l

/-- R134, R135: the settle marks the start of `init` and makes no latch. -/
theorem marksFrom_settle {c : Configuration} (hu : LinesUsable c) {a : List Event} (he : lastSet c.pins.en a ≠ some true) :
    marksFrom c a (settleEvents c) = [.initStart] := by
  obtain ⟨hre, hrd, -, -, -⟩ := linesUsable_facts hu
  have hlines : ∀ (b : List Event), marksFrom c b ((usedData c).map .cfg) = [] := fun b => by
    rw [marksFrom_eq_latches c b (by simpa using hrd), latchesFrom_eq_nil c b (by simp)]; rfl
  have hno : lastSet c.pins.en ((usedData c).map Event.cfg) = none := lastSet_eq_none (by simp)
  simp [settleEvents, marksFrom, marksFrom_append, hlines, isFalling, hre, Ne.symm hre, lastSet_append, lastSet_cons,
    drives_set_other hre, hno, he]

section
variable {c : Configuration} (hb : c.busWidth = .fourBit) (hu : LinesUsable c)
include hb hu

/-- R91: the mark of a bare nibble, register-select low. -/
theorem marksFrom_nibble {a : List Event} (he : lastSet c.pins.en a ≠ some true)
    (hrs : lastSet c.pins.rs a = some false) (v : Byte) :
    marksFrom c a (latchEvents c 4 v) = [.latch ⟨false, v &&& 0x0F#8⟩] := by
  have hlat := latchesFrom_latch hu v a he
  simp only [hb, busLines, level, hrs] at hlat
  rw [marksFrom_eq_latches c a (cfg_notMem_latch c 4 v _), hlat]
  rfl

/-- R136: the four nibbles of the handshake. -/
theorem marksFrom_handshake_four {a : List Event} (he : lastSet c.pins.en a ≠ some true)
    (hrs : lastSet c.pins.rs a = some false) :
    marksFrom c a (handshakeEvents c) =
      [.latch ⟨false, 0x3⟩, .latch ⟨false, 0x3⟩, .latch ⟨false, 0x3⟩, .latch ⟨false, 0x2⟩] := by
  obtain ⟨hre, hrd, -, -, -⟩ := linesUsable_facts hu
  simp only [usedData, hb, busLines] at hrd
  have hen : ∀ v, lastSet c.pins.en (latchEvents c 4 v) = some false := fun v => lastSet_latch_en c 4 v []
  simp [handshakeEvents, hb, marksFrom_append, marksFrom_wait, marksFrom_nibble hb hu, lastSet_append, lastSet_cons, hen,
    lastSet_latch_other hre hrd, he, hrs]

end

/-- What a handshake adds to the frames (R91, R137): bare nibbles, or whole words. -/
def handshakeFrames (c : Configuration) : List Frame :=
  match c.busWidth with
  | .fourBit => [.handshake ⟨false, 0x3⟩, .handshake ⟨false, 0x3⟩, .handshake ⟨false, 0x3⟩, .handshake ⟨false, 0x2⟩]
  | .eightBit => [.word ⟨false, functionByte c⟩, .word ⟨false, functionByte c⟩, .word ⟨false, functionByte c⟩]

/-- Steps 3 to 6 of `init` lead from boundary to boundary. -/
theorem atBoundary_handshake {c : Configuration} (hu : LinesUsable c) {a : List Event} {fs : List Frame}
    (h : AtBoundary c a fs) :
    AtBoundary c (a ++ (settleEvents c ++ handshakeEvents c)) (fs ++ handshakeFrames c) := by
  obtain ⟨hen, hrs⟩ := lastSet_settle hu a
  have hidle : lastSet c.pins.en (a ++ settleEvents c) ≠ some true := by rw [hen]; nofun
  have hstart := marksFrom_settle hu h.2
  rw [← List.append_assoc]
  cases hb : c.busWidth with
  | fourBit =>
    refine ⟨?_, enable_stays_idle hidle (transfer_enable (transfer_handshake c))⟩
    rw [List.append_assoc]
    refine frames_append h.1 ?_
    rw [marksFrom_append, hstart, marksFrom_handshake_four hb hu hidle hrs, handshakeFrames, hb]
    rfl
  | eightBit =>
    have hsettle : AtBoundary c (a ++ settleEvents c) fs :=
      ⟨by simpa using frames_append (gs := []) h.1 (by rw [hstart, hb]; rfl), hidle⟩
    have h1 := atBoundary_wait (atBoundary_send hu hsettle (functionByte c) false) (tHs81 c)
    have h2 := atBoundary_wait (atBoundary_send hu h1 (functionByte c) false) (tHs82 c)
    simpa [handshakeEvents, handshakeFrames, hb] using atBoundary_send hu h2 (functionByte c) false

theorem atBoundary_init {c : Configuration} (hu : LinesUsable c) {a : List Event} {fs : List Frame}
    (h : AtBoundary c a fs) :
    AtBoundary c (a ++ initEvents c) (fs ++ handshakeFrames c
      ++ [.word ⟨false, functionByte c⟩, .word ⟨false, 0x0C⟩, .word ⟨false, 0x01⟩, .word ⟨false, 0x06⟩]) := by
  simpa [initEvents] using atBoundary_finish hu (atBoundary_handshake hu h)

/-- R130: on a valid configuration, with no fault and not `Ready`, `init` completes. -/
theorem init_eq_afterInit {s t : State} (hf : s.fault = none) (hl : s.life ≠ .ready) (hv : valid s.config = true)
    (h : exec .init s = .next t) : t = afterInit s := by
  rcases execInit_spec s with ⟨hf', -⟩ | ⟨-, hl', -⟩ | ⟨-, -, hv', -⟩ | ⟨-, -, -, hs⟩
  · exact absurd hf hf'
  · exact absurd hl' hl
  · rw [hv] at hv'; cases hv'
  · exact Host.Outcome.next.inj (h.symm.trans hs)

/-- R92: every host request but `init` appends whole words, and waits after them, or nothing. -/
theorem exec_appends_words {i : Instr} {op : HostOp} {s t : State} (hi : i.hostOp = some op) (hne : op ≠ .init)
    (h : exec i s = .next t) : ∃ es, t.trace = s.trace ++ es ∧ WholeWords s.config es := by
  have hinit : i ≠ .init := by rintro rfl; cases hi; exact hne rfl
  cases exec_effect h with
  | refused | notReady => exact ⟨[], (List.append_nil _).symm, [], [], rfl⟩
  | already hi' | invalid hi' | initialized hi' => exact absurd hi' hinit
  | misuse _ hi' => cases hi'; cases hi
  | transfer hi' => rw [hi] at hi'; cases hi'
  | request _ _ _ _ _ es _ hw => exact ⟨es, rfl, hw⟩

/-! ## The function-set byte -/

theorem functionByte_eq (c : Configuration) : functionByte c = 0x20#8 ||| functionBits c := by
  simp [functionByte, functionMask, functionBits, flagIf, FUNCTIONSET, EIGHTBITMODE, TWOLINE, DOTS5X10]

/-- R87, R29: the byte is the function set of the bus width, of more than one row, and of the large font on one row. -/
theorem functionByte_eq_functionSetByte {c : Configuration} (hr : 1 ≤ c.rows) :
    functionByte c = functionSetByte (decide (c.busWidth = .eightBit)) (!decide (c.rows = 1))
      (decide (c.font = .font5x10) && decide (c.rows = 1)) 0 := by
  have hmore : decide (c.rows > 1) = !decide (c.rows = 1) := by rw [← decide_not, decide_eq_decide]; omega
  simp [functionByte, functionMask, functionSetByte, hmore, BitVec.or_assoc]

/-! ## The obligations -/

/-- Settles O1: each of the three written forms reads back. -/
theorem decodeEncodeRoundTrip : Obligations.DecodeEncodeRoundTrip := by
  intro i
  cases h : encode i with
  | bus9 w => exact congrArg Except.ok (decodeBus9_of_encode h)
  | nib4 w => exact decodeNib4_of_encode h
  | call line => exact decodeLine_of_encode h

/-- Settles O14: a row's effect is one `send`, and what a `send` carries is its word. -/
theorem busWordTransfers : Obligations.BusWordTransfers := by
  intro i w s h hu he
  exact ⟨_, by rw [exec_of_encode_bus9 h, send_next hu.1]; rfl, carries_send hu he _ _⟩

/-- Settles O15: bits 3:0 of 0x3 and of 0x2. -/
theorem handshakeNibbleTransfers : Obligations.HandshakeNibbleTransfers := fun _ hb hu he hrs =>
  ⟨writeNibble_transfers hb hu he hrs 0x3, writeNibble_transfers hb hu he hrs 0x2⟩

/-- Settles O26: past the guard the expansion appends the same events. -/
theorem pseudoOperationsExpand : Obligations.PseudoOperationsExpand := fun _ _ h =>
  ⟨fun _ => execPrint_expands h, fun _ _ => execCreateChar_expands h, sendAndBlock_expands h, sendAndBlock_expands h⟩

/-- Settles O52: under EightBit a latch is a word, under FourBit a pair is. -/
theorem latchesGiveTheWordsBack : Obligations.LatchesGiveTheWordsBack := by
  intro b ws
  cases b with
  | eightBit => simp [latchWords, wordsLatches, wordLatches, List.map_flatMap]
  | fourBit => exact pairLatches_wordsLatches ws

/-- Settles O59: `init` and whole words both lead from boundary to boundary. -/
theorem wordsAreFramed : Obligations.WordsAreFramed := by
  refine ⟨fun s t fs hf hl hv he hfs h => ?_, fun i op s t fs hi hne hv he hfs h => ?_⟩
  · rw [init_eq_afterInit hf hl hv h, ← functionByte_eq]
    exact (atBoundary_init (linesUsable_of_valid hv) ⟨hfs, he⟩).1
  · obtain ⟨es, ht, ws, waits, rfl⟩ := exec_appends_words hi hne h
    have hu := linesUsable_of_valid hv
    exact ⟨_, ws, ht, latchesFrom_words hu ws waits _ he, by rw [ht]; exact frames_words hu hfs he ws waits⟩

/-- Settles O2: the ten branches of the decoder, over the 512 words. -/
theorem busWordsEncodeBack : Obligations.BusWordsEncodeBack := by
  unfold Obligations.BusWordsEncodeBack
  decide

/-- Settles O3: a class is a row, and a row is its mask and match. -/
theorem busWordClasses : Obligations.BusWordClasses := by
  intro w
  have hrow (k : Nat) (hk : k < 9) := busRow_eq_iff_mask hk w
  refine ⟨.trans ?_ (hrow 0 (by decide)), .trans ?_ (hrow 1 (by decide)), .trans ?_ (hrow 2 (by decide)),
    .trans ?_ (hrow 3 (by decide)), .trans ?_ (hrow 4 (by decide)), .trans ?_ (hrow 5 (by decide)),
    .trans ?_ (hrow 6 (by decide)), .trans ?_ (hrow 7 (by decide)), .trans ?_ (hrow 8 (by decide)),
    .trans ?_ (busRow_eq_zero_iff_mask w)⟩
  all_goals cases decodeBus9 w <;> simp [busRow]

/-- Settles O4. -/
theorem handshakeNibbleWords : Obligations.HandshakeNibbleWords := fun _ => rfl

/-- Settles O5. -/
theorem specWordsDecode : Obligations.SpecWordsDecode := by
  unfold Obligations.SpecWordsDecode
  decide

/-- Settles O48: three flags, so at most eight cases of R87's table. -/
theorem functionSetBytes : Obligations.FunctionSetBytes := by
  intro c hr
  rw [functionByte_eq_functionSetByte hr]
  generalize decide (c.rows = 1) = oneRow, decide (c.font = .font5x10) = large, c.busWidth = b
  revert oneRow large
  cases b <;> decide

end Sys2Proof.Proofs
end

section
/-! PROOFS. The bit transfer layer (40_bit_transfer.md): the events of a latch on lines that exist, what the block's own
transfers leave unchanged, and the level of enable after an instruction. -/

namespace Sys2Proof.Proofs

open Sys2Proof Sys2Proof.Machine Sys2Proof.Safety

/-! ## One latch -/

/-- R111, R112: with lines to drive, a latch completes; it drives each with its bit, ascending, and then pulses. -/
theorem latch_of_lines {s : State} {lines rest : List LineId} (hd : s.config.pins.data = lines ++ rest) (v : Byte) :
    latch lines.length v s = .next { s with
      trace := s.trace ++ (driveFrom v 0 lines ++ pulseOf s.config.pins.en (tPulse s.config)) } := by
  have hlen : ¬ s.config.pins.data.length < lines.length := by simp [hd]
  rw [latch_spec, if_neg hlen, latchEvents, hd, List.take_left]
  rfl

/-- Only the bits that have a line count. -/
theorem driveFrom_congr {v w : Byte} (i : Nat) (ls : List LineId)
    (h : ∀ k < i + ls.length, v.getLsbD k = w.getLsbD k) : driveFrom v i ls = driveFrom w i ls := by
  induction ls generalizing i with
  | nil => rfl
  | cons l ls ih =>
    rw [List.length_cons] at h
    rw [driveFrom, driveFrom, h i (by omega), ih (i + 1) fun k hk => h k (by omega)]

theorem getLsbD_and_low_nibble (v : Byte) {k : Nat} (hk : k < 4) : (v &&& 0x0F#8).getLsbD k = v.getLsbD k := by
  have hmask : (0x0F#8).getLsbD k = true := by revert k; decide
  rw [BitVec.getLsbD_and, hmask, Bool.and_true]

/-- R111: bits 7:4 are ignored. -/
theorem writeNibble_and_low_nibble (v : Byte) (s : State) : writeNibble (v &&& 0x0F#8) s = writeNibble v s := by
  have hdrive : driveFrom (v &&& 0x0F#8) 0 (s.config.pins.data.take 4) = driveFrom v 0 (s.config.pins.data.take 4) :=
    driveFrom_congr 0 _ fun k hk => getLsbD_and_low_nibble v (by rw [List.length_take] at hk; omega)
  rw [writeNibble, writeNibble, latch, latch, hdrive]

/-! ## What an instruction emits -/

/-- R113, R207: an instruction the host cannot request is a transfer, or a `writeByte` under FourBit. -/
theorem exec_of_block {i : Instr} {s t : State} (hi : i.hostOp = none) (h : exec i s = .next t) :
    (∃ es, Transfer s.config es ∧ t = emit es s) ∨
      ∃ v, i = .writeByte v ∧ s.config.busWidth = .fourBit ∧ t = raise (.busWidthMisuse v) s := by
  cases exec_effect h with
  | misuse v hi hb => exact .inr ⟨v, hi, hb, rfl⟩
  | transfer _ es he => exact .inl ⟨es, he, rfl⟩
  | refused _ hop | notReady _ hop | request _ hop => rw [hi] at hop; cases hop
  | already hinit | invalid hinit | initialized hinit => rw [hinit] at hi; cases hi

/-- R110: the appended events never end with enable high; those of a host request end with it low, unless there are
none or the configuration was rejected. -/
theorem exec_appends_enable {i : Instr} {s t : State} (h : exec i s = .next t) :
    ∃ es, t.trace = s.trace ++ es ∧ lastSet s.config.pins.en es ≠ some true ∧
      (i.hostOp = none ∨ t.result = some .errInvalidConfiguration ∨ es = [] ∨
        lastSet s.config.pins.en es = some false) := by
  cases exec_effect h with
  | refused | notReady | already | misuse =>
    exact ⟨[], (List.append_nil _).symm, by simp, .inr (.inr (.inl rfl))⟩
  | invalid => exact ⟨_, rfl, by simp [lastSet_cons], .inr (.inl rfl)⟩
  | initialized =>
    have hlow : lastSet s.config.pins.en (initEvents s.config) = some false := lastSet_init_en s.config []
    exact ⟨_, rfl, by simp [hlow], .inr (.inr (.inr hlow))⟩
  | transfer hi es he => exact ⟨es, rfl, transfer_enable he, .inl hi⟩
  | request _ _ _ _ _ es he _ hen => exact ⟨es, rfl, transfer_enable he, .inr (.inr hen)⟩

/-! ## The obligations -/

/-- Settles O16: none of the four is a host request, and a transfer is made of `Set` and `Dly` events. -/
theorem transferLayerWritesNothing : Obligations.TransferLayerWritesNothing := by
  intro i s t hi h
  have hop : i.hostOp = none := by
    rcases hi with rfl | ⟨_, rfl⟩ | ⟨_, rfl⟩ | ⟨_, _, rfl⟩ <;> rfl
  rcases exec_of_block hop h with ⟨es, he, rfl⟩ | hmisuse
  · exact .inl ⟨es, rfl, fun _ hm => (mem_transfer he hm).imp_right fun ⟨k, _, hk⟩ => ⟨k, hk⟩⟩
  · exact .inr hmisuse

/-- Settles O46: the appended events decide the level, or do not touch it. -/
theorem enableEndsLow : Obligations.EnableEndsLow := by
  intro i s t h
  obtain ⟨es, ht, hidle, hlow⟩ := exec_appends_enable h
  refine ⟨fun hs => ?_, fun hop hne herr => ?_⟩
  · rw [EnableIdle, exec_config h, ht]
    exact enable_stays_idle hs hidle
  · have hes : es ≠ [] := fun h0 => hne (by rw [ht, h0, List.append_nil])
    have hfalse := ((hlow.resolve_left hop).resolve_left herr).resolve_left hes
    rw [ht, lastSet_append, hfalse, Option.some_or]

/-- Settles O9. -/
theorem pulseEnableEvents : Obligations.PulseEnableEvents := fun _ =>
  ⟨Nat.le_add_right 1 _, pulseEnable_spec _⟩

/-- Settles O10: one latch of four lines. -/
theorem writeNibbleEvents : Obligations.WriteNibbleEvents := fun s v d0 d1 d2 d3 _ hd =>
  ⟨latch_of_lines (s := s) (lines := [d0, d1, d2, d3]) hd v, (writeNibble_and_low_nibble v s).symm⟩

/-- Settles O11: the fault comes before any event; else one latch of eight lines. -/
theorem writeByteEvents : Obligations.WriteByteEvents := by
  refine fun s v => ⟨fun hb => ?_, fun d0 d1 d2 d3 d4 d5 d6 d7 _ hb hd => ?_⟩
  · change writeByte v s = .next (raise (.busWidthMisuse v) s)
    simp [writeByte, hb]
  · have hlatch : exec (.writeByte v) s = latch 8 v s := if_neg (not_not_intro hb)
    rw [hlatch]
    exact latch_of_lines (lines := [d0, d1, d2, d3, d4, d5, d6, d7]) hd v

end Sys2Proof.Proofs
end

section
/-! PROOFS. The command/data layer (41_command_data.md): the events of `send` on lines that exist, the two host requests
that are one `send`, and no instruction reading the past output back. -/

namespace Sys2Proof.Proofs

open Sys2Proof Sys2Proof.Machine Sys2Proof.Safety

/-! ## The events of one send -/

/-- The events of a latch, on lines that exist. -/
theorem latchEvents_of_lines {c : Configuration} {lines rest : List LineId} (hd : c.pins.data = lines ++ rest) (v : Byte) :
    latchEvents c lines.length v = driveFrom v 0 lines ++ pulseOf c.pins.en (tPulse c) := by
  rw [latchEvents, hd, List.take_left]
  rfl

/-- R120: driving `value >> n` drives the bits of the value from bit `n` up. -/
theorem driveFrom_ushiftRight (v : Byte) (n i : Nat) (ls : List LineId) :
    driveFrom (v >>> n) i ls = driveFrom v (n + i) ls := by
  induction ls generalizing i with
  | nil => rfl
  | cons l ls ih => rw [driveFrom, driveFrom, ih, BitVec.getLsbD_ushiftRight, Nat.add_assoc]

/-- R120, R64: the two nibble latches of four lines, the high nibble's first. -/
theorem sendEvents_of_four_lines {c : Configuration} (hb : c.busWidth = .fourBit) {lines rest : List LineId}
    (hd : c.pins.data = lines ++ rest) (hl : lines.length = 4) (v : Byte) (d : Bool) :
    sendEvents c v d = .set c.pins.rs d ::
      ((driveFrom v 4 lines ++ pulseOf c.pins.en (tPulse c)) ++ (driveFrom v 0 lines ++ pulseOf c.pins.en (tPulse c))) := by
  simp only [sendEvents, hb]
  rw [← hl, latchEvents_of_lines hd, latchEvents_of_lines hd, hl, driveFrom_ushiftRight]

/-- R120: the one byte latch of eight lines. -/
theorem sendEvents_of_eight_lines {c : Configuration} (hb : c.busWidth = .eightBit) {lines rest : List LineId}
    (hd : c.pins.data = lines ++ rest) (hl : lines.length = 8) (v : Byte) (d : Bool) :
    sendEvents c v d = .set c.pins.rs d :: (driveFrom v 0 lines ++ pulseOf c.pins.en (tPulse c)) := by
  simp only [sendEvents, hb]
  rw [← hl, latchEvents_of_lines hd]

/-! ## Host requests that are one send -/

/-- R204, R206: the guard turns every host request but `init` away. -/
theorem guardedBy_of_hostOp {i : Instr} {op : HostOp} (hi : i.hostOp = some op) (hne : op ≠ .init) : GuardedBy i op := by
  obtain ⟨body, hbody⟩ := exec_eq_guarded hi hne
  refine fun s => ⟨fun hf => ?_, fun hf hl => ?_⟩
  · rw [hbody, guarded, if_pos hf]
    rfl
  · rw [hbody, guarded_before_ready hf hl]
    rfl

/-- R94: a host request that on an open state is one `send` answered `Ok` sends one bus word. -/
theorem sends_of_send {i : Instr} {op : HostOp} (hi : i.hostOp = some op) (hne : op ≠ .init) {v : Byte} {d : Bool}
    (hsend : ∀ s, Open s → exec i s = .next (answer .ok (emit (sendEvents s.config v d) s))) :
    Sends i op [⟨d, v⟩] (fun _ => []) .ok := by
  refine ⟨guardedBy_of_hostOp hi hne, fun s ho he => ⟨_, hsend s ho, ?_⟩⟩
  obtain ⟨-, -, hv⟩ := ho
  exact carries_send (linesUsable_of_valid hv) he v d

theorem exec_send_next {s : State} (h : Open s) (v : Byte) (d : Bool) :
    exec (.send v d) s = .next (emit (sendEvents s.config v d) s) := by
  obtain ⟨-, -, hv⟩ := h
  exact send_next (lines_of_valid hv) v d

/-! ## Nothing is read back (R74, R123) -/

/-- Two outcomes of one instruction, run after the past outputs `a` and `b`: the same fault, or the same next state but for
the trace, to which both append the same events. -/
inductive SameAfter (a b : List Event) :
    Host.Outcome State Fault Refusal → Host.Outcome State Fault Refusal → Prop where
  | next (t : State) (es : List Event) (ht : t.trace = a ++ es) :
      SameAfter a b (.next t) (.next { t with trace := b ++ es })
  | fault (f : Fault) : SameAfter a b (.fault f) (.fault f)

/-- `k` does the same after every past output. -/
def ReadsNoPast (k : State → Host.Outcome State Fault Refusal) : Prop :=
  ∀ (s : State) (b : List Event), SameAfter s.trace b (k s) (k { s with trace := b })

namespace SameAfter

/-- A next state that keeps the trace. -/
theorem keep (t : State) (b : List Event) : SameAfter t.trace b (.next t) (.next { t with trace := b }) := by
  simpa using next (b := b) t [] (List.append_nil _).symm

theorem emit (es : List Event) (s : State) (b : List Event) :
    SameAfter s.trace b (.next (emit es s)) (.next (Machine.emit es { s with trace := b })) :=
  next _ es rfl

variable {a b : List Event} {o o' p p' : Host.Outcome State Fault Refusal}

theorem ite {c : Prop} [Decidable c] (ho : c → SameAfter a b o o') (hp : ¬ c → SameAfter a b p p') :
    SameAfter a b (if c then o else p) (if c then o' else p') := by
  by_cases hc : c
  · simpa only [if_pos hc] using ho hc
  · simpa only [if_neg hc] using hp hc

theorem andThen (h : SameAfter a b o o') {k : State → Host.Outcome State Fault Refusal} (hk : ReadsNoPast k) :
    SameAfter a b (andThen o k) (Machine.andThen o' k) := by
  cases h with
  | fault f => exact .fault f
  | next t es ht =>
    have hrest := hk t (b ++ es)
    change SameAfter a b (k t) (k { t with trace := b ++ es })
    generalize k t = q, k { t with trace := b ++ es } = q' at hrest
    cases hrest with
    | fault f => exact .fault f
    | next u fs hu => simpa using next (b := b) u (es ++ fs) (by rw [hu, ht, List.append_assoc])

theorem answering (h : SameAfter a b o o') (r : Result) : SameAfter a b (answering r o) (Machine.answering r o') :=
  h.andThen fun s b => keep (answer r s) b

end SameAfter

theorem readsNoPast_wait (t : Configuration → Nat) : ReadsNoPast fun s => wait (t s.config) s :=
  fun s => .emit _ s

theorem readsNoPast_latch (w : Nat) (v : Byte) : ReadsNoPast (latch w v) := fun s b => by
  rw [latch_spec, latch_spec]
  exact .ite (fun _ => .fault _) fun _ => .emit _ s b

theorem readsNoPast_writeByte (v : Byte) : ReadsNoPast (writeByte v) := fun s b =>
  .ite (fun _ => .keep (raise (.busWidthMisuse v) s) b) fun _ => readsNoPast_latch 8 v s b

theorem readsNoPast_send (v : Byte) (d : Bool) : ReadsNoPast (send v d) := fun s b => by
  rw [send_spec, send_spec]
  exact .ite (fun _ => .fault _) fun _ => .emit _ s b

theorem readsNoPast_sendAll (d : Bool) (vs : List Byte) : ReadsNoPast (sendAll d vs) := by
  induction vs with
  | nil => exact fun s b => .keep s b
  | cons v vs ih => exact fun s b => (readsNoPast_send v d s b).andThen ih

theorem readsNoPast_guarded (op : HostOp) {body : State → Host.Outcome State Fault Refusal} (h : ReadsNoPast body) :
    ReadsNoPast (guarded op body) := fun s b =>
  .ite (fun _ => .keep (refuse op s) b) fun _ => .ite (fun _ => .keep (raise (.notReady op) s) b) fun _ => h s b

theorem readsNoPast_sendInstruction (op : HostOp) (v : Byte) : ReadsNoPast (sendInstruction op v) :=
  readsNoPast_guarded op fun s b => (readsNoPast_send v false s b).answering .ok

theorem readsNoPast_sendAndBlock (op : HostOp) (v : Byte) : ReadsNoPast (sendAndBlock op v) :=
  readsNoPast_guarded op fun s b =>
    ((readsNoPast_send v false s b).andThen (readsNoPast_wait tClear)).answering .ok

theorem readsNoPast_updateControl (op : HostOp) (f : Byte → Byte) : ReadsNoPast (updateControl op f) :=
  readsNoPast_guarded op fun s b =>
    (readsNoPast_send _ false { s with displayControl := some (f (controlMask s)) } b).answering .ok

theorem readsNoPast_updateMode (op : HostOp) (f : Byte → Byte) : ReadsNoPast (updateMode op f) :=
  readsNoPast_guarded op fun s b =>
    (readsNoPast_send _ false { s with displayMode := some (f (modeMask s)) } b).answering .ok

theorem readsNoPast_placeCursor (col row : Byte) : ReadsNoPast (placeCursor col row) := fun s b => by
  have hoffset : cursorOffset row { s with trace := b } = cursorOffset row s := rfl
  rw [placeCursor, placeCursor, hoffset]
  cases cursorOffset row s with
  | none => exact .fault _
  | some offset => exact readsNoPast_send _ false s b

theorem readsNoPast_init : ReadsNoPast execInit := fun s b => by
  refine .ite (fun _ => .keep (refuse .init s) b) fun _ => .ite (fun _ => .keep (raise .alreadyInitialized s) b) fun _ =>
    .ite (fun _ => .next _ [.fatal .invalidConfiguration] rfl) fun hv => ?_
  have hlines := lines_of_valid (Bool.of_not_eq_false hv)
  rw [initSteps_next hlines, initSteps_next (by exact hlines)]
  exact .next (afterInit s) (initEvents s.config) rfl

theorem exec_readsNoPast (i : Instr) : ReadsNoPast (exec i) := by
  cases i with
  | clearDisplay | returnHome | entryModeSet | displayControl | cursorShift | functionSet | setCgramAddr | setDdramAddr
  | data | nonInstr00 | send => exact readsNoPast_send _ _
  | hsNib3 | hsNib2 | writeNibble => exact readsNoPast_latch 4 _
  | pulseEnable => exact fun s b => .emit _ s b
  | writeByte v => exact readsNoPast_writeByte v
  | command v => exact readsNoPast_sendInstruction .command v
  | writeChar v => exact readsNoPast_guarded .writeChar fun s b => (readsNoPast_send v true s b).answering .ok
  | init => exact readsNoPast_init
  | clear | home => exact readsNoPast_sendAndBlock _ _
  | setCursor col row =>
    exact readsNoPast_guarded .setCursor fun s b => (readsNoPast_placeCursor col row s b).answering .ok
  | display => exact readsNoPast_updateControl .display (setFlag · DISPLAYON)
  | noDisplay => exact readsNoPast_updateControl .noDisplay (clearFlag · DISPLAYON)
  | cursor => exact readsNoPast_updateControl .cursor (setFlag · CURSORON)
  | noCursor => exact readsNoPast_updateControl .noCursor (clearFlag · CURSORON)
  | blink => exact readsNoPast_updateControl .blink (setFlag · BLINKON)
  | noBlink => exact readsNoPast_updateControl .noBlink (clearFlag · BLINKON)
  | scrollDisplayLeft | scrollDisplayRight => exact readsNoPast_sendInstruction _ _
  | leftToRight => exact readsNoPast_updateMode .leftToRight (setFlag · ENTRYLEFT)
  | rightToLeft => exact readsNoPast_updateMode .rightToLeft (clearFlag · ENTRYLEFT)
  | autoscroll => exact readsNoPast_updateMode .autoscroll (setFlag · ENTRYSHIFTINCREMENT)
  | noAutoscroll => exact readsNoPast_updateMode .noAutoscroll (clearFlag · ENTRYSHIFTINCREMENT)
  | createChar location glyph =>
    exact readsNoPast_guarded .createChar fun s b =>
      ((readsNoPast_send (glyphAddressByte location) false s b).andThen (readsNoPast_sendAll true glyph.rows)).answering .ok
  | print text =>
    exact readsNoPast_guarded .print fun s b => (readsNoPast_sendAll true text s b).answering (.okCount text.length)

/-! ## The obligations -/

/-- Settles O13: register-select, then the latches of four or eight lines. Protected, so that `sendEvents` stays the name
of the model's list of events. -/
protected theorem sendEvents : Obligations.SendEvents := by
  refine fun s v isData => ⟨fun d0 d1 d2 d3 rest hb hd => ?_, fun d0 d1 d2 d3 d4 d5 d6 d7 rest hb hd => ?_⟩
  · have hlines : busLines s.config.busWidth ≤ s.config.pins.data.length := by simp [hb, hd, busLines]
    change send v isData s = _
    rw [send_next hlines, sendEvents_of_four_lines hb (lines := [d0, d1, d2, d3]) hd rfl]
    rfl
  · have hlines : busLines s.config.busWidth ≤ s.config.pins.data.length := by simp [hb, hd, busLines]
    change send v isData s = _
    rw [send_next hlines, sendEvents_of_eight_lines hb (lines := [d0, d1, d2, d3, d4, d5, d6, d7]) hd rfl]
    rfl

/-- Settles O17. -/
theorem commandSendsVerbatim : Obligations.CommandSendsVerbatim := fun v =>
  ⟨sends_of_send rfl (by decide) fun _ ho => exec_command_next ho v,
    fun _ ho => ⟨_, exec_send_next ho v false, exec_command_next ho v⟩⟩

/-- Settles O18. -/
theorem writeCharSendsVerbatim : Obligations.WriteCharSendsVerbatim := fun v =>
  ⟨sends_of_send rfl (by decide) fun _ ho => exec_writeChar_next ho v,
    fun _ ho => ⟨_, exec_send_next ho v true, exec_writeChar_next ho v⟩⟩

/-- Settles O45: a state and the same state after another trace answer the same but for the trace. -/
theorem nothingIsReadBack : Obligations.NothingIsReadBack := by
  intro i s tr
  have hsame := exec_readsNoPast i s tr
  generalize exec i s = o, exec i { s with trace := tr } = o' at hsame ⊢
  cases hsame with
  | next t es ht => exact ⟨fun _ h => by cases h; exact ⟨es, ht, rfl⟩, nofun, nofun⟩
  | fault f => exact ⟨fun _ h => (by cases h), fun _ h => by cases h; rfl, nofun⟩

end Sys2Proof.Proofs
end

section
/-! PROOFS. `init` (42_init.md R130 to R142): the state it leaves, the latches its events make, their counts and their
minimum time. -/

namespace Sys2Proof.Proofs

open Sys2Proof Sys2Proof.Machine Sys2Proof.Safety

/-! ## The state a completed `init` leaves -/

/-- R130, R141: on a valid configuration, with no fault and not `Ready`, nothing stops `init`. -/
theorem exec_init_next {s : State} (hf : s.fault = none) (hl : s.life ≠ .ready) (hv : valid s.config = true) :
    exec .init s = .next (afterInit s) := by
  obtain ⟨t, ht⟩ : ∃ t, exec .init s = .next t := execInit_answers s
  rw [ht, init_eq_afterInit hf hl hv ht]

theorem functionMask_eq (c : Configuration) : functionMask c = functionBits c := by
  simp [functionMask, functionBits, flagIf, EIGHTBITMODE, TWOLINE, DOTS5X10]

/-! ## The latches of `init` -/

theorem latchesFrom_wait (c : Configuration) (a : List Event) (t : Nat) (es : List Event) :
    latchesFrom c a (.dly t :: es) = latchesFrom c (a ++ [.dly t]) es := by
  simp [latchesFrom, isFalling]

/-- R135: the settle leaves enable low. -/
theorem enable_idle_settle {c : Configuration} (hu : LinesUsable c) (a : List Event) :
    lastSet c.pins.en (a ++ settleEvents c) ≠ some true := by
  obtain ⟨hen, -⟩ := lastSet_settle hu a
  rw [hen]
  nofun

section
variable {c : Configuration} (hu : LinesUsable c) {a : List Event} (he : lastSet c.pins.en a ≠ some true)
include hu he

/-- R135: enable, not high before, has no falling edge when the settle drives it low. -/
theorem latchesFrom_settle : latchesFrom c a (settleEvents c) = [] := by
  obtain ⟨hre, -, -, -, -⟩ := linesUsable_facts hu
  have hno : lastSet c.pins.en ((usedData c).map Event.cfg) = none := lastSet_eq_none (by simp)
  have hcfg (b : List Event) : latchesFrom c b ((usedData c).map .cfg) = [] := latchesFrom_eq_nil c b (by simp)
  simp [settleEvents, latchesFrom, latchesFrom_append, hcfg, isFalling, hre, lastSet_append, lastSet_cons,
    drives_set_other hre, hno, he]

/-- R136: the bare nibbles of the handshake, register-select low. -/
theorem latchesFrom_handshake_four (hb : c.busWidth = .fourBit) (hrs : lastSet c.pins.rs a = some false) :
    latchesFrom c a (handshakeEvents c) = [⟨false, 0x3⟩, ⟨false, 0x3⟩, ⟨false, 0x3⟩, ⟨false, 0x2⟩] := by
  have hmarks := marksFrom_handshake_four hb hu he hrs
  rw [marksFrom_eq_latches c a (transfer_cfg_notMem (transfer_handshake c) _)] at hmarks
  exact List.map_injective_iff.mpr (fun _ _ => Mark.latch.inj) hmarks

/-- R137: the whole words of the handshake. -/
theorem latchesFrom_handshake_eight (hb : c.busWidth = .eightBit) :
    latchesFrom c a (handshakeEvents c) =
      [⟨false, functionByte c⟩, ⟨false, functionByte c⟩, ⟨false, functionByte c⟩] := by
  simp [handshakeEvents, hb, latchesFrom_append, latchesFrom_send hu, latchesFrom_wait, lastSet_append, lastSet_cons,
    lastSet_send_nil, he, wordLatches]

/-- R139, R140: the words after the handshake. -/
theorem latchesFrom_finish : latchesFrom c a (finishEvents c) =
    wordsLatches c.busWidth [⟨false, functionByte c⟩, ⟨false, 0x0C⟩, ⟨false, 0x01⟩, ⟨false, 0x06⟩] := by
  simp [finishEvents, latchesFrom_append, latchesFrom_send hu, latchesFrom_wait, lastSet_append, lastSet_cons,
    lastSet_send_nil, he, wordsLatches]

/-- R130: the latches of the handshake, and then those of four words. -/
theorem latchesFrom_init : latchesFrom c a (initEvents c) =
    latchesFrom c (a ++ settleEvents c) (handshakeEvents c) ++
      wordsLatches c.busWidth [⟨false, functionByte c⟩, ⟨false, 0x0C⟩, ⟨false, 0x01⟩, ⟨false, 0x06⟩] := by
  have hidle : lastSet c.pins.en (a ++ (settleEvents c ++ handshakeEvents c)) ≠ some true := by
    rw [← List.append_assoc]
    exact enable_stays_idle (enable_idle_settle hu a) (transfer_enable (transfer_handshake c))
  rw [initEvents, latchesFrom_append, latchesFrom_append, latchesFrom_settle hu he, List.nil_append,
    latchesFrom_finish hu hidle]

end

/-! ## The counts of `init` -/

/-- Without a `Fatal`, the events are those of the three kinds R142 counts. -/
theorem length_eq_counts {es : List Event} (h : ∀ k, Event.fatal k ∉ es) :
    es.length = countCfg es + countSet es + countDly es := by
  induction es with
  | nil => rfl
  | cons e es ih =>
    have ih := ih fun k hk => h k (List.mem_cons_of_mem _ hk)
    cases e with
    | cfg l => rw [List.length_cons, countCfg_cfg, countSet_cfg, countDly_cfg]; omega
    | set l b => rw [List.length_cons, countCfg_set, countSet_set, countDly_set]; omega
    | dly t => rw [List.length_cons, countCfg_dly, countSet_dly, countDly_dly]; omega
    | fatal k => exact absurd (List.mem_cons_self ..) (h k)

theorem countCfg_map_cfg (ls : List LineId) : countCfg (ls.map .cfg) = ls.length :=
  List.countP_map.trans (List.countP_eq_length.mpr fun _ _ => rfl)

theorem countSet_map_cfg (ls : List LineId) : countSet (ls.map .cfg) = 0 :=
  List.countP_map.trans (List.countP_eq_zero.mpr fun _ _ => Bool.false_ne_true)

theorem countDly_map_cfg (ls : List LineId) : countDly (ls.map .cfg) = 0 :=
  List.countP_map.trans (List.countP_eq_zero.mpr fun _ _ => Bool.false_ne_true)

theorem minDuration_map_cfg (ls : List LineId) : minDuration (ls.map .cfg) = 0 := by
  induction ls with
  | nil => rfl
  | cons l ls ih => rw [List.map_cons, minDuration_cfg, ih]

theorem countSet_driveFrom (v : Byte) (i : Nat) (ls : List LineId) : countSet (driveFrom v i ls) = ls.length := by
  rw [driveFrom_eq_map, ← List.length_zipIdx (l := ls) (i := i)]
  exact List.countP_map.trans (List.countP_eq_length.mpr fun _ _ => rfl)

theorem countDly_driveFrom (v : Byte) (i : Nat) (ls : List LineId) : countDly (driveFrom v i ls) = 0 := by
  rw [driveFrom_eq_map]
  exact List.countP_map.trans (List.countP_eq_zero.mpr fun _ _ => Bool.false_ne_true)

/-- R41: only `init` itself configures lines. -/
theorem countCfg_transfer {c : Configuration} {es : List Event} (h : Transfer c es) : countCfg es = 0 :=
  List.countP_eq_zero.mpr fun e he => by
    cases e with
    | cfg l => exact absurd he (transfer_cfg_notMem h l)
    | set | dly | fatal => nofun

theorem countSet_latch {c : Configuration} {w : Nat} (h : w ≤ c.pins.data.length) (v : Byte) :
    countSet (latchEvents c w v) = w + 3 := by
  simp [latchEvents, countSet_driveFrom, pulseEvents, h]

theorem countDly_latch (c : Configuration) (w : Nat) (v : Byte) : countDly (latchEvents c w v) = 3 := by
  simp [latchEvents, countDly_driveFrom, pulseEvents]

theorem countSet_send {c : Configuration} (h : busLines c.busWidth ≤ c.pins.data.length) (v : Byte) (d : Bool) :
    countSet (sendEvents c v d) = match c.busWidth with | .fourBit => 15 | .eightBit => 12 := by
  cases hb : c.busWidth <;> rw [hb] at h <;> simp only [busLines] at h <;> simp [sendEvents, hb, countSet_latch h]

theorem countDly_send (c : Configuration) (v : Byte) (d : Bool) :
    countDly (sendEvents c v d) = sendHolds c.busWidth := by
  cases hb : c.busWidth <;> simp [sendEvents, hb, countDly_latch, sendHolds]

/-- R134: register-select, enable and the used data lines. -/
theorem countCfg_init {c : Configuration} (hu : LinesUsable c) : countCfg (initEvents c) = 2 + busLines c.busWidth := by
  obtain ⟨-, -, -, -, hlen⟩ := linesUsable_facts hu
  simp [initEvents, settleEvents, countCfg_map_cfg, hlen, countCfg_transfer (transfer_handshake c),
    countCfg_transfer (transfer_finish c)]
  omega

theorem countSet_handshake {c : Configuration} (h : busLines c.busWidth ≤ c.pins.data.length) :
    countSet (handshakeEvents c) = match c.busWidth with | .fourBit => 28 | .eightBit => 36 := by
  have hsend := countSet_send h
  cases hb : c.busWidth <;> rw [hb] at h hsend <;> simp only [busLines] at h <;>
    simp [handshakeEvents, hb, countSet_latch h, hsend]

theorem countDly_handshake (c : Configuration) :
    countDly (handshakeEvents c) = match c.busWidth with | .fourBit => 15 | .eightBit => 11 := by
  cases hb : c.busWidth <;> simp [handshakeEvents, hb, countDly_latch, countDly_send, sendHolds]

/-- R135, R139, R140: besides the handshake, two levels and four words. -/
theorem countSet_init {c : Configuration} (h : busLines c.busWidth ≤ c.pins.data.length) :
    countSet (initEvents c) = match c.busWidth with | .fourBit => 90 | .eightBit => 86 := by
  simp only [initEvents, settleEvents, finishEvents, countSet_append, countSet_cfg, countSet_map_cfg, countSet_dly,
    countSet_set, countSet_nil, countSet_handshake h, countSet_send h]
  cases c.busWidth <;> rfl

/-- R135, R140: besides the handshake, `T_POWER`, four words and `T_CLEAR`. -/
theorem countDly_init (c : Configuration) :
    countDly (initEvents c) = match c.busWidth with | .fourBit => 41 | .eightBit => 25 := by
  simp only [initEvents, settleEvents, finishEvents, countDly_append, countDly_cfg, countDly_map_cfg, countDly_dly,
    countDly_set, countDly_nil, countDly_handshake, countDly_send]
  cases c.busWidth <;> rfl

/-! ## The minimum time of `init` -/

theorem minDuration_handshake (c : Configuration) : minDuration (handshakeEvents c) =
    match c.busWidth with
    | .fourBit => tHs41 c + tHs42 c + tHs43 c + 12 * tPulse c
    | .eightBit => tHs81 c + tHs82 c + 9 * tPulse c := by
  cases hb : c.busWidth <;> simp [handshakeEvents, hb, minDuration_latch, minDuration_send, sendHolds] <;> omega

theorem minDuration_init (c : Configuration) : minDuration (initEvents c) =
    tPower c + minDuration (handshakeEvents c) + 4 * (sendHolds c.busWidth * tPulse c) + tClear c := by
  simp [initEvents, settleEvents, finishEvents, minDuration_map_cfg, minDuration_send]
  omega

/-- R252: the least time, whatever the timing. -/
theorem minimumMs_le_minDuration_init (c : Configuration) (n : Nat) :
    minimumMs c.busWidth .init n ≤ minDuration (initEvents c) := by
  rw [minDuration_init, minDuration_handshake]
  cases c.busWidth <;>
    simp only [minimumMs, sendHolds, tPower, tClear, tHs41, tHs42, tHs43, tHs81, tHs82, tPulse] <;> omega

/-- R252: the time at the default timing. -/
theorem minDuration_init_default {c : Configuration} (h : c.timing = .default) (n : Nat) :
    minDuration (initEvents c) = minimumMs c.busWidth .init n := by
  rw [minDuration_init, minDuration_handshake]
  cases c.busWidth <;>
    simp only [minimumMs, sendHolds, tPower, tClear, tHs41, tHs42, tHs43, tHs81, tHs82, tPulse, h, Timing.default]

/-! ## The obligations -/

/-- Settles O29. -/
theorem initCompletes : Obligations.InitCompletes := fun s hf hl hv =>
  ⟨initEvents s.config, by rw [exec_init_next hf hl hv, ← functionMask_eq]; rfl⟩

/-- Settles O30: the model's events are those R130 writes, and each of the three parts has its latches. -/
theorem initLatchSequence : Obligations.InitLatchSequence := by
  refine ⟨fun c => ?_, fun s t hf hl hv h => ?_⟩
  · simp [tPower, tHs41, tHs42, tHs43, tHs81, tHs82, tClear]
  · rw [init_eq_afterInit hf hl hv h, ← functionByte_eq, ← initEvents_eq]
    refine ⟨rfl, fun he => ?_⟩
    have hu := linesUsable_of_valid hv
    obtain ⟨-, hrs⟩ := lastSet_settle hu s.trace
    have hidle := enable_idle_settle hu s.trace
    rw [latchesFrom_init hu he]
    cases hb : s.config.busWidth with
    | fourBit => rw [latchesFrom_handshake_four hu hidle hb hrs]
    | eightBit => rw [latchesFrom_handshake_eight hu hidle hb]; rfl

/-- Settles O31: `Cfg`, `Set` and `Dly` make up all the events. -/
theorem initTotals : Obligations.InitTotals := by
  intro s t hf hl hv h
  have hu := linesUsable_of_valid hv
  have hlen := length_eq_counts (init_fatal_notMem s.config)
  have hcfg := countCfg_init hu
  have hset := countSet_init hu.1
  have hdly := countDly_init s.config
  have hmin := minimumMs_le_minDuration_init s.config 0
  have hdef (hd : s.config.timing = .default) := minDuration_init_default hd 0
  rw [hcfg, hset, hdly] at hlen
  refine ⟨initEvents s.config, by rw [init_eq_afterInit hf hl hv h]; rfl, ?_⟩
  cases hb : s.config.busWidth <;> rw [hb] at hlen hcfg hset hdly hmin hdef <;>
    exact ⟨hlen, hcfg, hset, hdly, hmin, hdef⟩

/-- Settles O32. -/
theorem initBeginsBySettling : Obligations.InitBeginsBySettling := by
  intro s t hf hl hv h
  refine ⟨Nat.le_add_right 40 _, handshakeEvents s.config ++ finishEvents s.config, ?_⟩
  rw [init_eq_afterInit hf hl hv h, ← List.append_assoc (_ ++ _)]
  rfl

end Sys2Proof.Proofs
end

section
/-! PROOFS. The controller operations (43_controller_ops.md R160 to R181): what each host request does on an open state,
the bus words it carries, and the two masks under repeated operations. -/

namespace Sys2Proof.Proofs

open Sys2Proof Sys2Proof.Machine Sys2Proof.Safety

/-! ## Past the guard -/

theorem valid_of_open {s : State} (h : Open s) : valid s.config = true := by
  obtain ⟨-, -, hv⟩ := h
  exact hv

theorem linesUsable_of_open {s : State} (h : Open s) : LinesUsable s.config := linesUsable_of_valid (valid_of_open h)

theorem lines_of_open {s : State} (h : Open s) : busLines s.config.busWidth ≤ s.config.pins.data.length :=
  lines_of_valid (valid_of_open h)

/-- On an open state a guarded request that answers ends in the one state its body can end in. -/
theorem next_of_open {op : HostOp} {s u : State} {o : Host.Outcome State Fault Refusal} (h : Open s)
    (ha : ∃ t, o = .next t)
    (hc : ∀ {t}, o = .next t → (s.fault ≠ none ∧ t = refuse op s) ∨
      (s.fault = none ∧ s.life ≠ .ready ∧ t = raise (.notReady op) s) ∨ (s.fault = none ∧ s.life = .ready ∧ t = u)) :
    o = .next u := by
  obtain ⟨t, ht⟩ := ha
  rw [ht, past_guard h (hc ht)]

section
variable {s : State} (h : Open s)
include h

theorem sendInstruction_next (op : HostOp) (v : Byte) :
    sendInstruction op v s = .next (answer .ok (emit (sendEvents s.config v false) s)) :=
  next_of_open h (sendInstruction_answers (fun _ => lines_of_open h) op v) sendInstruction_eq_next

theorem sendAndBlock_next (op : HostOp) (v : Byte) :
    sendAndBlock op v s =
      .next (answer .ok (emit (sendEvents s.config v false ++ [.dly (tClear s.config)]) s)) :=
  next_of_open h (sendAndBlock_answers (fun _ => lines_of_open h) op v) sendAndBlock_eq_next

theorem updateControl_next (op : HostOp) (f : Byte → Byte) :
    updateControl op f s =
      .next (answer .ok (emit (sendEvents s.config (DISPLAYCONTROL ||| f (controlMask s)) false)
        { s with displayControl := some (f (controlMask s)) })) :=
  next_of_open h (updateControl_answers (fun _ => lines_of_open h) op f) updateControl_eq_next

theorem updateMode_next (op : HostOp) (f : Byte → Byte) :
    updateMode op f s =
      .next (answer .ok (emit (sendEvents s.config (ENTRYMODESET ||| f (modeMask s)) false)
        { s with displayMode := some (f (modeMask s)) })) :=
  next_of_open h (updateMode_answers (fun _ => lines_of_open h) op f) updateMode_eq_next

theorem exec_setCursor_next {row offset : Byte} (ho : cursorOffset row s = some offset) (col : Byte) :
    exec (.setCursor col row) s = .next (answer .ok (emit (sendEvents s.config (cursorByte col offset) false) s)) := by
  have hlines := lines_of_open h
  obtain ⟨hf, hl, -⟩ := h
  rw [exec, execSetCursor, guarded_open _ _ hf hl, placeCursor, ho]
  exact answering_send hlines ..

theorem exec_createChar_next (l : Byte) (g : Glyph) :
    exec (.createChar l g) s = .next (answer .ok
      (emit (sendEvents s.config (glyphAddressByte l) false ++ sendAllEvents s.config true g.rows) s)) :=
  next_of_open h (execCreateChar_answers (fun _ => lines_of_open h) l g) execCreateChar_eq_next

theorem exec_print_next (text : List Byte) :
    exec (.print text) s = .next (answer (.okCount text.length) (emit (sendAllEvents s.config true text) s)) :=
  next_of_open h (execPrint_answers (fun _ => lines_of_open h) text) execPrint_eq_next

end

/-! ## The bus words of a request -/

/-- R98: a host request that on an open state emits `es` of its configuration, answered `r`, sends the words they carry. -/
theorem sends_of_carries {i : Instr} {op : HostOp} (hi : i.hostOp = some op) (hne : op ≠ .init) {ws : List BusWord}
    {r : Result} {es : Configuration → List Event}
    (hexec : ∀ s, Open s → exec i s = .next (answer r (emit (es s.config) s)))
    (hc : ∀ s, LinesUsable s.config → EnableIdle s → Carries s (es s.config) ws []) :
    Sends i op ws (fun _ => []) r :=
  ⟨guardedBy_of_hostOp hi hne, fun s ho he => ⟨es s.config, hexec s ho, hc s (linesUsable_of_open ho) he⟩⟩

/-- R180: the address word, then a data word for each row. -/
theorem carries_createChar {s : State} (hu : LinesUsable s.config) (he : EnableIdle s) (l : Byte) (g : Glyph) :
    Carries s (sendEvents s.config (glyphAddressByte l) false ++ sendAllEvents s.config true g.rows)
      (⟨false, glyphAddressByte l⟩ :: g.rows.map (⟨true, ·⟩)) [] :=
  carries_append (carries_send hu he (glyphAddressByte l) false)
    (carries_sendAll (s := emit _ s) hu (enableIdle_emit_send s (glyphAddressByte l) false) true g.rows)

/-- R160, R161: the request is the `send` of its byte, then one wait of `T_CLEAR`. -/
theorem sendAndBlock_waits {s : State} {i : Instr} {op : HostOp} {v : Byte} (h : Open s)
    (hexec : exec i s = sendAndBlock op v s) :
    (∃ t, exec (.send v false) s = .next t
        ∧ exec i s = .next { t with trace := t.trace ++ [.dly (tClear s.config)], result := some .ok })
      ∧ (EnableIdle s → ∃ es,
          exec i s = .next { s with trace := s.trace ++ (es ++ [.dly (tClear s.config)]), result := some .ok }
          ∧ Carries s es [⟨false, v⟩] []) := by
  have hnext := hexec.trans (sendAndBlock_next h op v)
  refine ⟨⟨_, exec_send_next h v false, ?_⟩, fun he => ⟨_, hnext, carries_send (linesUsable_of_open h) he v false⟩⟩
  rw [hnext, ← emit_emit]
  rfl

/-- R163 to R168: a request that is `updateControl` with `f`. -/
theorem updatesControl_of_exec {i : Instr} {op : HostOp} {f : Byte → Byte} (hi : i.hostOp = some op) (hne : op ≠ .init)
    (hexec : ∀ s, exec i s = updateControl op f s) : UpdatesControl i op f := by
  refine ⟨guardedBy_of_hostOp hi hne, fun s d ho he hd => ⟨sendEvents s.config (DISPLAYCONTROL ||| f d) false, ?_,
    carries_send (linesUsable_of_open ho) he _ false⟩⟩
  have hmask : controlMask s = d := by simp [controlMask, hd]
  rw [hexec, updateControl_next ho, hmask]
  rfl

/-- R171 to R174: a request that is `updateMode` with `f`. -/
theorem updatesMode_of_exec {i : Instr} {op : HostOp} {f : Byte → Byte} (hi : i.hostOp = some op) (hne : op ≠ .init)
    (hexec : ∀ s, exec i s = updateMode op f s) : UpdatesMode i op f := by
  refine ⟨guardedBy_of_hostOp hi hne, fun s m ho he hm => ⟨sendEvents s.config (ENTRYMODESET ||| f m) false, ?_,
    carries_send (linesUsable_of_open ho) he _ false⟩⟩
  have hmask : modeMask s = m := by simp [modeMask, hm]
  rw [hexec, updateMode_next ho, hmask]
  rfl

/-! ## The row of `setCursor` -/

theorem rows_pos_of_valid {c : Configuration} (h : valid c = true) : 0 < c.rows := by
  simp only [valid, Bool.and_eq_true, decide_eq_true_eq] at h
  obtain ⟨⟨⟨⟨⟨-, hlo, -⟩, -⟩, -⟩, -⟩, -⟩ := h
  exact hlo

/-- R63, R162: the offset read is the table's entry of the clamped row. -/
theorem cursorOffset_eq_rowEntry {s : State} {t : RowOffsets} (hr : 0 < s.config.rows) (ht : s.rowOffset = some t)
    (row : Byte) :
    cursorOffset row s = rowEntry t (if row.toNat ≥ s.config.rows then s.config.rows - 1 else row.toNat) := by
  simp [cursorOffset, clampRow, Nat.ne_of_gt hr, rowTableOf, ht]

/-! ## Setting and clearing a flag again -/

theorem setFlag_setFlag (flag mask : Byte) : setFlag (setFlag mask flag) flag = setFlag mask flag := by
  rw [setFlag, setFlag, BitVec.or_assoc, BitVec.or_self]

theorem clearFlag_clearFlag (flag mask : Byte) : clearFlag (clearFlag mask flag) flag = clearFlag mask flag := by
  rw [clearFlag, clearFlag, BitVec.and_assoc, BitVec.and_self]

/-- Clearing a flag undoes setting it, bit for bit but for the flag itself. -/
theorem clearFlag_setFlag (mask flag : Byte) : clearFlag (setFlag mask flag) flag = clearFlag mask flag := by
  rw [clearFlag, setFlag, BitVec.and_or_distrib_right, BitVec.and_not_self]
  exact BitVec.or_zero

/-- C5: clearing bit 0 changes nothing exactly when it was clear. -/
theorem clearFlag_increment_eq_self_iff (m : Byte) : clearFlag m ENTRYSHIFTINCREMENT = m ↔ m.getLsbD 0 = false := by
  revert m; decide

/-! ## Mask operations repeated -/

/-- R163 to R168, R171 to R174: a mask operation updates one of the two masks, by a function that repeating does not
change further. -/
theorem maskOperation_cases {i : Instr} (hi : i ∈ maskOperations) :
    ∃ (op : HostOp) (f : Byte → Byte), (∀ d, f (f d) = f d) ∧
      ((∀ s, exec i s = updateControl op f s) ∨ ∀ s, exec i s = updateMode op f s) := by
  simp only [maskOperations, List.mem_cons, List.not_mem_nil, or_false] at hi
  rcases hi with rfl | rfl | rfl | rfl | rfl | rfl | rfl | rfl | rfl | rfl
  · exact ⟨.display, (setFlag · DISPLAYON), setFlag_setFlag DISPLAYON, .inl fun _ => rfl⟩
  · exact ⟨.noDisplay, (clearFlag · DISPLAYON), clearFlag_clearFlag DISPLAYON, .inl fun _ => rfl⟩
  · exact ⟨.cursor, (setFlag · CURSORON), setFlag_setFlag CURSORON, .inl fun _ => rfl⟩
  · exact ⟨.noCursor, (clearFlag · CURSORON), clearFlag_clearFlag CURSORON, .inl fun _ => rfl⟩
  · exact ⟨.blink, (setFlag · BLINKON), setFlag_setFlag BLINKON, .inl fun _ => rfl⟩
  · exact ⟨.noBlink, (clearFlag · BLINKON), clearFlag_clearFlag BLINKON, .inl fun _ => rfl⟩
  · exact ⟨.leftToRight, (setFlag · ENTRYLEFT), setFlag_setFlag ENTRYLEFT, .inr fun _ => rfl⟩
  · exact ⟨.rightToLeft, (clearFlag · ENTRYLEFT), clearFlag_clearFlag ENTRYLEFT, .inr fun _ => rfl⟩
  · exact ⟨.autoscroll, (setFlag · ENTRYSHIFTINCREMENT), setFlag_setFlag ENTRYSHIFTINCREMENT, .inr fun _ => rfl⟩
  · exact ⟨.noAutoscroll, (clearFlag · ENTRYSHIFTINCREMENT), clearFlag_clearFlag ENTRYSHIFTINCREMENT, .inr fun _ => rfl⟩

/-- W6: a second run, from `t` to `u`, keeps both masks as the first left them and appends the events the first did. -/
def RunsAgain (s t u : State) : Prop :=
  u.displayControl = t.displayControl ∧ u.displayMode = t.displayMode
    ∧ ∃ es, t.trace = s.trace ++ es ∧ u.trace = t.trace ++ es

/-- R163 to R168: the state a display-control request leaves. -/
theorem updateControl_leaves {s t : State} {op : HostOp} {f : Byte → Byte} (h : Open s)
    (ht : updateControl op f s = .next t) :
    Open t ∧ t.config = s.config ∧ controlMask t = f (controlMask s) ∧ t.displayControl = some (f (controlMask s))
      ∧ t.displayMode = s.displayMode
      ∧ t.trace = s.trace ++ sendEvents s.config (DISPLAYCONTROL ||| f (controlMask s)) false := by
  obtain rfl := past_guard h (updateControl_eq_next ht)
  exact ⟨h, rfl, rfl, rfl, rfl, rfl⟩

/-- R171 to R174: the state an entry-mode request leaves. -/
theorem updateMode_leaves {s t : State} {op : HostOp} {f : Byte → Byte} (h : Open s)
    (ht : updateMode op f s = .next t) :
    Open t ∧ t.config = s.config ∧ modeMask t = f (modeMask s) ∧ t.displayMode = some (f (modeMask s))
      ∧ t.displayControl = s.displayControl
      ∧ t.trace = s.trace ++ sendEvents s.config (ENTRYMODESET ||| f (modeMask s)) false := by
  obtain rfl := past_guard h (updateMode_eq_next ht)
  exact ⟨h, rfl, rfl, rfl, rfl, rfl⟩

section
variable {s t u : State} {op : HostOp} {f : Byte → Byte} (h : Open s) (hf : ∀ d, f (f d) = f d)
include h hf

theorem updateControl_runsAgain (ht : updateControl op f s = .next t) (hu : updateControl op f t = .next u) :
    RunsAgain s t u := by
  obtain ⟨ho, hconfig, hmask, hcontrol, -, htrace⟩ := updateControl_leaves h ht
  obtain ⟨-, -, -, hcontrol', hmode', htrace'⟩ := updateControl_leaves ho hu
  rw [hmask, hf] at hcontrol' htrace'
  rw [hconfig] at htrace'
  exact ⟨hcontrol'.trans hcontrol.symm, hmode', _, htrace, htrace'⟩

theorem updateMode_runsAgain (ht : updateMode op f s = .next t) (hu : updateMode op f t = .next u) :
    RunsAgain s t u := by
  obtain ⟨ho, hconfig, hmask, hmode, -, htrace⟩ := updateMode_leaves h ht
  obtain ⟨-, -, -, hmode', hcontrol', htrace'⟩ := updateMode_leaves ho hu
  rw [hmask, hf] at hmode' htrace'
  rw [hconfig] at htrace'
  exact ⟨hcontrol', hmode'.trans hmode.symm, _, htrace, htrace'⟩

end

/-- R171 to R174: two entry-mode requests one after the other apply their functions one after the other. -/
theorem updateMode_then_updateMode {s t u : State} {op₁ op₂ : HostOp} {f g : Byte → Byte} {m : Byte} (h : Open s)
    (hm : s.displayMode = some m) (ht : updateMode op₁ f s = .next t) (hu : updateMode op₂ g t = .next u) :
    u.displayMode = some (g (f m)) := by
  have hread : modeMask s = m := by simp [modeMask, hm]
  obtain ⟨ho, -, hmask, -, -, -⟩ := updateMode_leaves h ht
  obtain ⟨-, -, -, hmode, -, -⟩ := updateMode_leaves ho hu
  rw [hmode, hmask, hread]

/-! ## The obligations -/

/-- Settles O19: both are `sendAndBlock` of their byte. -/
theorem clearAndHome : Obligations.ClearAndHome := by
  refine ⟨fun i op v hmem => ?_, fun c => Nat.le_add_right 2 _⟩
  simp only [List.mem_cons, List.not_mem_nil, or_false, Prod.mk.injEq] at hmem
  rcases hmem with ⟨rfl, rfl, rfl⟩ | ⟨rfl, rfl, rfl⟩
  · exact ⟨guardedBy_of_hostOp rfl (by decide), fun s ho => sendAndBlock_waits (op := .clear) ho rfl⟩
  · exact ⟨guardedBy_of_hostOp rfl (by decide), fun s ho => sendAndBlock_waits (op := .home) ho rfl⟩

/-- Settles O20: on a valid configuration the clamped row has its entry in the table. -/
theorem setCursorSendsAddress : Obligations.SetCursorSendsAddress := by
  refine fun col row => ⟨guardedBy_of_hostOp rfl (by decide), fun s t ho he ht => ?_⟩
  have hv := valid_of_open ho
  obtain ⟨offset, hoff⟩ := cursorOffset_of_valid hv row
  refine ⟨_, offset, ?_, exec_setCursor_next ho hoff col, carries_send (linesUsable_of_open ho) he _ false⟩
  rw [← cursorOffset_eq_rowEntry (rows_pos_of_valid hv) ht, hoff]

/-- Settles O21: each is `updateControl` of its flag, and `0xFB`, `0xFD`, `0xFE` are the flags' complements. -/
theorem displayControlOperations : Obligations.DisplayControlOperations := by
  refine ⟨?_, ?_, ?_, ?_, ?_, ?_⟩ <;> exact updatesControl_of_exec rfl (by decide) fun _ => rfl

/-- Settles O22. -/
theorem scrollOperations : Obligations.ScrollOperations :=
  ⟨sends_of_send rfl (by decide) fun _ ho => sendInstruction_next ho .scrollDisplayLeft 0x18,
    sends_of_send rfl (by decide) fun _ ho => sendInstruction_next ho .scrollDisplayRight 0x1C⟩

/-- Settles O23: each is `updateMode` of its flag, and `0xFD`, `0xFE` are the flags' complements. -/
theorem entryModeOperations : Obligations.EntryModeOperations := by
  refine ⟨?_, ?_, ?_, ?_⟩ <;> exact updatesMode_of_exec rfl (by decide) fun _ => rfl

/-- Settles O24. -/
theorem createCharWritesGlyph : Obligations.CreateCharWritesGlyph := fun l g =>
  sends_of_carries (es := fun c => sendEvents c (glyphAddressByte l) false ++ sendAllEvents c true g.rows) rfl
    (by decide) (fun _ ho => exec_createChar_next ho l g) fun _ hu he => carries_createChar hu he l g

/-- Settles O25. -/
theorem printWritesText : Obligations.PrintWritesText := fun text =>
  sends_of_carries (es := fun c => sendAllEvents c true text) rfl (by decide) (fun _ ho => exec_print_next ho text)
    fun _ hu he => carries_sendAll hu he true text

/-- Settles O27: each mask operation updates its mask by an idempotent function. -/
theorem maskOperationsRepeat : Obligations.MaskOperationsRepeat := by
  intro i s t u hi h ht hu
  obtain ⟨op, f, hf, hexec | hexec⟩ := maskOperation_cases hi
  · exact updateControl_runsAgain h hf (hexec s ▸ ht) (hexec t ▸ hu)
  · exact updateMode_runsAgain h hf (hexec s ▸ ht) (hexec t ▸ hu)

/-- Settles O28. -/
theorem autoscrollPair : Obligations.AutoscrollPair := by
  intro s t u m h hm ht hu
  have hmode : u.displayMode = some (clearFlag m ENTRYSHIFTINCREMENT) := by
    rw [← clearFlag_setFlag]
    exact updateMode_then_updateMode (f := (setFlag · _)) (g := (clearFlag · _)) h hm ht hu
  refine ⟨hmode, ?_⟩
  rw [hmode, hm, Option.some.injEq, clearFlag_increment_eq_self_iff]

end Sys2Proof.Proofs
end

section
/-! PROOFS. Errors, faults and refusals (60_exceptions.md R200 to R209): the one outcome of a host request, said once, and
what follows from it about the answer, the fault and the rest of the state. -/

namespace Sys2Proof.Proofs

open Sys2Proof Sys2Proof.Machine Sys2Proof.Safety

/-! ## The outcome of a host request -/

/-- What the host request `op` did, made as the instruction `i`, when it answered a next state: R208's outcomes in order. -/
inductive HostOutcome (i : Instr) (op : HostOp) (s : State) : State → Prop where
  /-- R206 -/
  | refused (hf : s.fault ≠ none) : HostOutcome i op s (refuse op s)
  /-- R205 -/
  | already (hop : op = .init) (hf : s.fault = none) (hl : s.life = .ready) :
      HostOutcome i op s (raise .alreadyInitialized s)
  /-- R202 -/
  | invalid (hop : op = .init) (hf : s.fault = none) (hl : s.life ≠ .ready) (hv : valid s.config = false) :
      HostOutcome i op s (answer .errInvalidConfiguration (emit [.fatal .invalidConfiguration] s))
  /-- R141 -/
  | initialized (hop : op = .init) (hf : s.fault = none) (hl : s.life ≠ .ready) (hv : valid s.config = true) :
      HostOutcome i op s (afterInit s)
  /-- R204 -/
  | notReady (hne : op ≠ .init) (hf : s.fault = none) (hl : s.life ≠ .ready) :
      HostOutcome i op s (raise (.notReady op) s)
  /-- R200, R46: past its guard the request ends without a fault, still in `Ready`, with its own `Ok` -/
  | done (hne : op ≠ .init) (hf : s.fault = none) (hl : s.life = .ready) {t : State} (hft : t.fault = none)
      (hlt : t.life = .ready) (hr : t.result = some (if op = .print then .okCount (printLength i) else .ok)) :
      HostOutcome i op s t

theorem exec_hostOutcome {i : Instr} {op : HostOp} {s t : State} (hi : i.hostOp = some op) (h : exec i s = .next t) :
    HostOutcome i op s t := by
  have hop {op'} (hi' : i.hostOp = some op') : op' = op := Option.some.inj (hi'.symm.trans hi)
  have hinit (hi' : i = .init) : op = .init := (hop (hi' ▸ rfl)).symm
  cases exec_effect h with
  | refused op' hi' hf => exact hop hi' ▸ .refused hf
  | notReady op' hi' hne hf hl => exact hop hi' ▸ .notReady hne hf hl
  | already hi' hf hl => exact .already (hinit hi') hf hl
  | invalid hi' hf hl hv => exact .invalid (hinit hi') hf hl hv
  | initialized hi' hf hl hv => exact .initialized (hinit hi') hf hl hv
  | misuse v hi' => subst hi'; cases hi
  | transfer hi' => rw [hi'] at hi; cases hi
  | request op' hi' hne hf hl => cases hop hi'; exact .done hne hf hl hf hl rfl

/-! ## One outcome at a time -/

theorem eq_init_of_hostOp {i : Instr} (hi : i.hostOp = some .init) : i = .init := by
  cases i <;> cases hi
  rfl

/-- R206: a standing fault is the first check of every host request, `init` included. -/
theorem exec_of_fault {i : Instr} {op : HostOp} {s : State} (hi : i.hostOp = some op) (hf : s.fault ≠ none) :
    exec i s = .next (refuse op s) := by
  by_cases hop : op = .init
  · subst hop
    rw [eq_init_of_hostOp hi]
    exact if_pos hf
  · exact (guardedBy_of_hostOp hi hop s).1 hf

/-- R33, R206: no instruction clears a fault. -/
theorem exec_keeps_fault {i : Instr} {s t : State} (hf : s.fault ≠ none) (h : exec i s = .next t) : t.fault ≠ none := by
  cases exec_effect h with
  | refused | invalid | transfer => exact hf
  | notReady | already | misuse => exact Option.some_ne_none _
  | initialized _ hf' | request _ _ _ hf' => exact absurd hf' hf

/-- R205: `init`'s second check. -/
theorem exec_init_ready {s : State} (hf : s.fault = none) (hl : s.life = .ready) :
    exec .init s = .next (raise .alreadyInitialized s) :=
  (if_neg (not_not_intro hf)).trans (if_pos hl)

/-- R202: `init`'s third check, before any step. -/
theorem exec_init_invalid {s : State} (hf : s.fault = none) (hl : s.life ≠ .ready) (hv : valid s.config = false) :
    exec .init s = .next (answer .errInvalidConfiguration (emit [.fatal .invalidConfiguration] s)) :=
  (if_neg (not_not_intro hf)).trans ((if_neg hl).trans (if_pos hv))

/-- R202: the checks of `Valid`, one by one. -/
theorem valid_iff (c : Configuration) : valid c = true ↔
    c.cfgPresent = true ∧ (1 ≤ c.rows ∧ c.rows ≤ 4) ∧ (1 ≤ c.cols ∧ c.cols ≤ 40) ∧ c.pins.data.length ≤ 8
      ∧ LinesUsable c := by
  simp only [valid, LinesUsable, Bool.and_eq_true, decide_eq_true_eq, and_assoc]

/-! ## The obligations -/

/-- Settles O34. -/
theorem invalidConfigurationIsReported : Obligations.InvalidConfigurationIsReported := by
  refine ⟨fun c => ?_, fun s hf hl hv => ⟨exec_init_invalid hf hl hv, fun t ht => ?_⟩⟩
  · rw [valid_iff, LinesUsable, usedData]
    cases hb : c.busWidth <;> rfl
  · cases (exec_init_invalid hf hl hv).symm.trans ht
    exact exec_init_invalid hf hl hv

/-- Settles O36. -/
theorem guardRaisesNotReady : Obligations.GuardRaisesNotReady := fun _ _ => guardedBy_of_hostOp

/-- Settles O37. -/
theorem stickyFaultRefuses : Obligations.StickyFaultRefuses :=
  ⟨fun _ _ _ => exec_of_fault, fun _ _ _ => exec_keeps_fault⟩

/-- Settles O38: each outcome is the branch its own checks select. -/
theorem outcomePriority : Obligations.OutcomePriority := by
  intro i op s t hi h
  cases exec_hostOutcome hi h with
  | refused hf => simp [hf]
  | already hop hf hl => simp [hop, hf, hl]
  | invalid hop hf hl hv => simp [hop, hf, hl, hv]
  | initialized hop hf hl hv => simp [hop, hf, hl, hv, afterInit]
  | notReady hne hf hl => simp [hne, hf, hl]
  | done hne hf hl _ _ hr => simp [hne, hf, hl, hr]

/-- Settles O39: a host request keeps the fault it meets or raises another kind. -/
theorem busWidthMisuseIsUnreachable : Obligations.BusWidthMisuseIsUnreachable := by
  intro i op s t v hi h ht
  cases exec_hostOutcome hi h with
  | refused | invalid | initialized => exact ht
  | already | notReady => cases ht
  | done _ _ _ hft => rw [hft] at ht; cases ht

/-- Settles O40: the answers of the other outcomes are `Ok`, `Ok(n)` and the reported error. -/
theorem abnormalOutcomesArePrecise : Obligations.AbnormalOutcomesArePrecise := by
  intro i op s t hi h hr
  cases exec_hostOutcome hi h with
  | refused hf => exact ⟨rfl, hf⟩
  | already | notReady => exact ⟨rfl, Option.some_ne_none _⟩
  | invalid | initialized => rcases hr with ⟨_, hr⟩ | ⟨_, hr⟩ <;> cases hr
  | done _ _ _ _ _ hok =>
    rw [hok] at hr
    split at hr <;> rcases hr with ⟨_, hr⟩ | ⟨_, hr⟩ <;> cases hr

/-- Settles O58: the request answers (R209), and past the guard there is one outcome left. -/
theorem readyRequestsSucceed : Obligations.ReadyRequestsSucceed := by
  intro i op s hi hne ⟨hf, hl, hv⟩ _
  obtain ⟨t, ht⟩ := exec_host_answers hi fun _ => hv
  refine ⟨t, ht, ?_⟩
  cases exec_hostOutcome hi ht with
  | done _ _ _ hft hlt hr => exact ⟨hft, hlt, hr⟩
  | refused hf' => exact absurd hf hf'
  | notReady _ _ hl' => exact absurd hl hl'
  | already hop | invalid hop | initialized hop => exact absurd hop hne

/-- Settles O35. -/
theorem secondInitIsAFault : Obligations.SecondInitIsAFault := fun _ => exec_init_ready

end Sys2Proof.Proofs
end

section
/-! PROOFS. Reset and hazards (70_reset_and_hazards.md R230 to R252): the state at construction, the lines `init` leaves,
and the minimum time of a host request. -/

namespace Sys2Proof.Proofs

open Sys2Proof Sys2Proof.Machine Sys2Proof.Safety

/-! ## The levels a `send` leaves -/

/-- R65: line `k` of distinct lines is left at bit `i + k`. -/
theorem lastSet_driveFrom {ls : List LineId} (hn : ls.Nodup) {k : Nat} {l : LineId} (hk : ls[k]? = some l) (v : Byte)
    (i : Nat) : lastSet l (driveFrom v i ls) = some (v.getLsbD (i + k)) := by
  induction ls generalizing i k with
  | nil => cases hk
  | cons a ls ih =>
    obtain ⟨ha, hn⟩ := List.nodup_cons.mp hn
    rw [driveFrom, lastSet_cons]
    cases k with
    | zero =>
      cases hk
      rw [lastSet_driveFrom_other ha, drives_set_same]
      rfl
    | succ k =>
      rw [ih hn hk (i + 1), Nat.add_right_comm]
      rfl

section
variable {c : Configuration} (hu : LinesUsable c)
include hu

/-- R65, R110: the pulse leaves used data line `k` at the bit the latch drove it to. -/
theorem lastSet_latch_data {k : Nat} {l : LineId} (hk : (usedData c)[k]? = some l) (v : Byte) :
    lastSet l (usedLatch c v) = some (v.getLsbD k) := by
  obtain ⟨-, -, hed, hn, -⟩ := linesUsable_facts hu
  have hle : l ≠ c.pins.en := ne_of_mem_of_not_mem (List.mem_of_getElem? hk) hed
  have hdrive := lastSet_driveFrom hn hk v 0
  rw [Nat.zero_add] at hdrive
  rw [← latchEvents_eq_used, latchEvents, lastSet_append, lastSet_eq_none (drives_pulse_other hle)]
  exact hdrive

/-- R120, R64: under either width the last latch of a `send` drives used data line `k` with bit `k` of the value. -/
theorem lastSet_send_data {k : Nat} {l : LineId} (hk : (usedData c)[k]? = some l) (v : Byte) (d : Bool)
    (a : List Event) : lastSet l (a ++ sendEvents c v d) = some (v.getLsbD k) := by
  have hlatch := lastSet_latch_data hu hk v
  rw [sendEvents_eq_word]
  cases hb : c.busWidth <;> simp [wordEvents, hb, lastSet_append, lastSet_cons, hlatch]

/-- R120: no latch of a `send` drives register-select. -/
theorem lastSet_send_rs (v : Byte) (d : Bool) (a : List Event) :
    lastSet c.pins.rs (a ++ sendEvents c v d) = some d := by
  obtain ⟨hre, hrd, -⟩ := linesUsable_facts hu
  have hlatch (v : Byte) : lastSet c.pins.rs (usedLatch c v) = none := by
    rw [← latchEvents_eq_used]
    exact lastSet_latch_other hre hrd v
  rw [sendEvents_eq_word]
  cases hb : c.busWidth <;> simp [wordEvents, hb, lastSet_append, lastSet_cons, hlatch]

end

/-- R140: the last events of `init` are those of the entry-mode word. -/
theorem afterInit_trace_ends (s : State) : ∃ a, (afterInit s).trace = a ++ sendEvents s.config 0x06 false :=
  ⟨_, by simp only [afterInit, initEvents, finishEvents, ← List.append_assoc]; rfl⟩

/-! ## Construction -/

/-- R230: before `init` nothing is driven, nothing is held and no fault stands. -/
theorem inv_construct (c : Configuration) : Inv (State.construct c) where
  settled := nofun
  validWhenReady := nofun
  functionWhenReady := nofun
  rowsWhenReady := nofun
  controlWhenReady := nofun
  modeWhenReady := nofun
  emptyWhenNotReady _ := ⟨rfl, rfl, rfl, rfl⟩
  enableLow := nofun
  delays := nofun
  notReadyFault := nofun
  alreadyFault := nofun
  misuseFault := nofun

/-! ## The obligations -/

/-- Settles O33: the last events of `init` are the `send` of 0x06. -/
theorem linesAfterInit : Obligations.LinesAfterInit := by
  intro s t hf hl hv h
  have hu := linesUsable_of_valid hv
  obtain ⟨a, ha⟩ := afterInit_trace_ends s
  rw [init_eq_afterInit hf hl hv h, ha]
  exact ⟨lastSet_send_rs hu .., lastSet_send_en .., fun _ _ hk => lastSet_send_data hu hk ..⟩

/-- Settles O47: `Ok` is the answer of `init`'s ten steps and of a request past its guard only. -/
theorem minimumDurations : Obligations.MinimumDurations := by
  intro i op s t hi hd h hok
  cases exec_effect h with
  | initialized hinit =>
    subst hinit
    cases hi
    exact ⟨initEvents s.config, rfl, minDuration_init_default hd _⟩
  | request op' hi' _ _ _ es _ _ _ _ _ _ _ hms =>
    cases hi.symm.trans hi'
    exact ⟨es, rfl, hms hd⟩
  | refused | notReady | already | invalid => rcases hok with hok | ⟨_, hok⟩ <;> cases hok
  | misuse v hw => subst hw; cases hi
  | transfer hnone => rw [hnone] at hi; cases hi

/-- Settles O54. -/
theorem constructionState : Obligations.ConstructionState :=
  ⟨fun _ => ⟨rfl, rfl, rfl, rfl, rfl, rfl, rfl, rfl⟩, resetConfiguration, rfl⟩

/-- Settles O55: reset is a construction. -/
theorem invariantAtReset : Obligations.InvariantAtReset :=
  ⟨inv_construct resetConfiguration, inv_construct⟩

end Sys2Proof.Proofs
end

section
/-! PROOFS. Missing data lines (D28, log entry 12): a latch that needs a line the configuration lacks stops. -/

namespace Sys2Proof.Proofs

open Sys2Proof Sys2Proof.Machine Sys2Proof.Safety

/-! ## The two stops -/

theorem latch_of_missing_line {s : State} {w : Nat} (hl : s.config.pins.data.length < w) (v : Byte) :
    latch w v s = .fault (.missingDataLine w s.config.pins.data.length) := by
  rw [latch_spec, if_pos hl]

/-- Under FourBit the high nibble's latch is the one that stops, so the fault names four lines. -/
theorem send_of_missing_line {s : State} (hl : s.config.pins.data.length < busLines s.config.busWidth) (v : Byte)
    (d : Bool) :
    send v d s = .fault (.missingDataLine (busLines s.config.busWidth) s.config.pins.data.length) := by
  rw [send_spec, if_pos hl]

/-- R112: past the width check `writeByte` is the latch of eight lines. -/
theorem writeByte_eq_latch {s : State} (hb : s.config.busWidth = .eightBit) (v : Byte) : writeByte v s = latch 8 v s :=
  if_neg (not_not_intro hb)

/-! ## The obligation -/

/-- Settles O12: a nibble is a latch of four lines, a byte under EightBit one of eight, and `send` stops with its
first latch. -/
theorem missingDataLineStops : Obligations.MissingDataLineStops := by
  refine fun s v d => ⟨fun hl => ?_, fun hb hl => ?_, fun hl => ?_⟩
  · exact latch_of_missing_line hl v
  · exact (writeByte_eq_latch hb v).trans (latch_of_missing_line hl v)
  · exact send_of_missing_line hl v d

end Sys2Proof.Proofs
end
